-- ==== Sys2Proof/Word.lean ====
section
/-!
DEFINITION. The two widths of the block (R9): a byte is 8 bits, a word is `CK_W` = 16 bits (R7, D1; log entry 5).
Counts are natural numbers (R7, D2).
-/

namespace Sys2Proof

/-- A byte, an unsigned value 0 to 255 (R9). -/
abbrev Byte := BitVec 8

/-- A word of `CK_W` = 16 bits: the checksum registers and the seed (R7, R12, R13). -/
abbrev Word := BitVec 16

end Sys2Proof
end

