-- ==== Sys2Proof/Config.lean ====
section
/-!
DEFINITION. What is fixed for an instance (R8, R14), the two enumerations of the block (R11, R20), and the one free value
(RECV_INIT, R7). `ChecksumFn` is the caller's update function held as data, so that a state can be compared and written out
(log entry 1); what it computes is `ChecksumFn.apply` in Machine/Ops.lean.
-/

namespace Sys2Proof

/-- The five values of the register `state`, exhaustive and mutually exclusive (R11). -/
inductive CodecState where
  /-- No frame open. -/
  | idle
  /-- Inside a frame, no escape pending. -/
  | started
  /-- An ESCAPE was consumed or written; its marker value is still to come. -/
  | escapeLatched
  /-- END is past; the low checksum byte is next. -/
  | checksumByte0
  /-- The low checksum byte is past; the high one is next. -/
  | checksumByte1
deriving DecidableEq, Repr

/-- The five statuses a DECODE or ENCODE call can return (R20, R150). -/
inductive Status where
  /-- A frame is complete. -/
  | done
  /-- More input is needed. -/
  | continue_
  /-- The output room ran out; not an error. -/
  | overflow
  /-- A byte illegal for the state. -/
  | invalidChar
  /-- The trailer does not match. -/
  | invalidChecksum
deriving DecidableEq, Repr

/-- A `checksum_update_fn` as plain data: a table of (accumulator, byte, result) and the result of every pair the table does
not list.  The first entry that matches counts.  The pairs are finitely many, so every total function of R8 is one of these. -/
structure ChecksumFn where
  table : List (Word × Byte × Word)
  unlisted : Word
deriving DecidableEq, Repr

/-- The configuration of an instance (R8, R14): the seed, and the update function or its absence. -/
structure CodecConfig where
  /-- `initial_checksum_value` -/
  seed : Word
  /-- `checksum_update_fn`; `none` is the sentinel "absent" (R25) -/
  fn : Option ChecksumFn
deriving DecidableEq, Repr

/-- RECV_INIT (R7, R140, D3): what `received_checksum` holds after the `n`-th INIT.  A free value: nothing is known of it
(log entry 2). -/
opaque Config.recvInit (n : Nat) : Word

/-- The config with which a reset input initialises the instance (R170: "act as INIT with the configured config").
DESIGN CHOICE, unsafe: the spec fixes no such config; the model takes seed 0 and no update function (log entry 3). -/
def Config.resetConfig : CodecConfig := { seed := 0#16, fn := none }

/-- `received_checksum` at reset.  DESIGN CHOICE, unsafe: the spec gives it no value (R171; log entry 4). -/
def Config.resetReceived : Word := 0#16

end Sys2Proof
end

