-- ==== Sys2Proof/Syntax.lean ====
section
/-!
DEFINITION. `Instr`: one constructor per row of spec/opcode_table.json, 14 decoder micro-operations, 7 encoder
micro-operations, 5 operations (R59, R60, R58).  A row that does not fix its byte carries it as an operand.
-/

namespace Sys2Proof

/-- The rows of the opcode table. -/
inductive Instr where
  -- the decoder's micro-operations, R82 to R95
  | decIdleStart
  | decIdleEnd
  | decIdleEsc
  | decIdleOther (b : Byte)
  | decStartedStart
  | decStartedEnd
  | decStartedEsc
  | decStartedOther (b : Byte)
  | decEscapedStart
  | decEscapedEnd
  | decEscapedEsc
  | decEscapedOther (b : Byte)
  | decCk0 (b : Byte)
  | decCk1 (b : Byte)
  -- the encoder's micro-operations, R111 to R117
  | encOpen
  | encEsc
  | encMark (v : Byte)
  | encLit (v : Byte)
  | encClose
  | encCk0
  | encCk1
  -- the operations, R140 to R142, R80, R110
  | init (config : CodecConfig)
  | reset
  | isError (status : Status)
  | decode (input : List Byte) (capacity : Nat)
  | encode (input : List Byte) (capacity : Nat)
deriving DecidableEq, Repr

end Sys2Proof
end

