-- ==== Sys2Proof/Machine/Classes.lean ====
section
/-!
DEFINITION. The marker bytes and the four byte classes (R50, R51, R73), the numeric codes of the enumerations (R57, R58),
and the two byte lanes of a word (R9, R36, R56).
-/

namespace Sys2Proof

/-- `START` (R6, R50). -/
abbrev startByte : Byte := 0x02#8

/-- `END` (R6, R50). -/
abbrev endByte : Byte := 0x03#8

/-- `ESCAPE` (R6, R50). -/
abbrev escapeByte : Byte := 0x10#8

/-- The class of a byte value (R51). -/
inductive ByteClass where
  /-- `START`, the value 0x02 -/
  | start
  /-- `END`, the value 0x03 -/
  | stop
  /-- `ESCAPE`, the value 0x10 -/
  | escape
  /-- `OTHER`, the 253 remaining values -/
  | other
deriving DecidableEq, Repr

/-- Every byte value is of exactly one class; `OTHER` is the default after the three exact matches (R51). -/
def classify (b : Byte) : ByteClass :=
  if b = startByte then .start
  else if b = endByte then .stop
  else if b = escapeByte then .escape
  else .other

/-- `IsMarker` (R73). -/
def isMarker (b : Byte) : Bool := b == startByte || b == endByte || b == escapeByte

/-- The code of a `state` value, the listing order (R57, D4). -/
def stateCode : CodecState → Byte
  | .idle => 0#8
  | .started => 1#8
  | .escapeLatched => 2#8
  | .checksumByte0 => 3#8
  | .checksumByte1 => 4#8

/-- The `state` value of a code; there are five (R11, R57). -/
def stateOfCode (c : Byte) : Option CodecState :=
  if c = 0#8 then some .idle
  else if c = 1#8 then some .started
  else if c = 2#8 then some .escapeLatched
  else if c = 3#8 then some .checksumByte0
  else if c = 4#8 then some .checksumByte1
  else none

/-- The code of a status, the listing order (R57, D5). -/
def statusCode : Status → Byte
  | .done => 0#8
  | .continue_ => 1#8
  | .overflow => 2#8
  | .invalidChar => 3#8
  | .invalidChecksum => 4#8

/-- The status of a code; there is no sixth (R20, R57). -/
def statusOfCode (c : Byte) : Option Status :=
  if c = 0#8 then some .done
  else if c = 1#8 then some .continue_
  else if c = 2#8 then some .overflow
  else if c = 3#8 then some .invalidChar
  else if c = 4#8 then some .invalidChecksum
  else none

/-- `w[7:0]` (R9). -/
def lowByte (w : Word) : Byte := w.extractLsb' 0 8

/-- `w[15:8]` (R9). -/
def highByte (w : Word) : Byte := w.extractLsb' 8 8

/-- `w[7:0] <- b`, the other bits unchanged (R9, R94). -/
def withLowByte (w : Word) (b : Byte) : Word := highByte w ++ b

/-- `w[15:8] <- b`, the other bits unchanged (R9, R95). -/
def withHighByte (w : Word) (b : Byte) : Word := b ++ lowByte w

end Sys2Proof
end

