-- ==== Sys2Proof/WellFormed.lean ====
section
/-!
DEFINITION. Which terms of `Instr` are rows of the table: an `OTHER` row never carries a marker (R51, R65 "exclude"),
ENC.MARK carries a marker and ENC.LIT does not (R60, R65 "payload_values").  DEC.CK0 and DEC.CK1 take any byte (R37, R59).
-/

namespace Sys2Proof

/-- The operand checks of the opcode table. -/
def Instr.wellFormed : Instr → Bool
  | .decIdleStart => true
  | .decIdleEnd => true
  | .decIdleEsc => true
  | .decIdleOther b => !isMarker b
  | .decStartedStart => true
  | .decStartedEnd => true
  | .decStartedEsc => true
  | .decStartedOther b => !isMarker b
  | .decEscapedStart => true
  | .decEscapedEnd => true
  | .decEscapedEsc => true
  | .decEscapedOther b => !isMarker b
  | .decCk0 _ => true
  | .decCk1 _ => true
  | .encOpen => true
  | .encEsc => true
  | .encMark v => isMarker v
  | .encLit v => !isMarker v
  | .encClose => true
  | .encCk0 => true
  | .encCk1 => true
  | .init _ => true
  | .reset => true
  | .isError _ => true
  | .decode _ _ => true
  | .encode _ _ => true

end Sys2Proof
end

