-- ==== Sys2Proof/Decode.lean ====
section
/-!
DEFINITION. Selecting an instruction, total and rejecting by name, and the encoder beside it.  The table has three kinds of
row (R65): a decoder row is selected by `state` and the wire byte (R59), an encoder row by `state` and the next payload byte
or its absence (R60), an operation by its code (R58).  `Fetched` is what each kind is selected from.
-/

namespace Sys2Proof

/-- The operands that come with an operation code on the command port (R58).  An operation reads those its signature
names. -/
structure Args where
  /-- the `config` of INIT -/
  config : CodecConfig
  /-- the code of the status IS_ERROR classifies (R57) -/
  status : Byte
  /-- `input_bytes` of DECODE and ENCODE -/
  input : List Byte
  /-- `output_capacity` of DECODE and ENCODE -/
  capacity : Nat
deriving DecidableEq, Repr

/-- Operands of zeros: no update function, no input, no room. -/
def Args.zero : Args := { config := { seed := 0#16, fn := none }, status := 0#8, input := [], capacity := 0 }

/-- What an instruction is selected from. -/
inductive Fetched where
  /-- An operation code with its operands (R58). -/
  | operation (code : Byte) (args : Args)
  /-- A wire byte and the decoder's `state` before it (R59). -/
  | wire (state : CodecState) (b : Byte)
  /-- The next payload byte, or none where no input remains, and the encoder's `state` (R60). -/
  | payload (state : CodecState) (next : Option Byte)
deriving DecidableEq, Repr

/-- Why nothing is selected. -/
inductive DecodeError where
  /-- The code names none of the five operations (R58, R144). -/
  | unknownOperation (code : Byte)
  /-- The code names none of the five statuses (R57, R142). -/
  | unknownStatus (code : Byte)
  /-- The encoder has nothing to do: `EscapeLatched` and no input (R60, R124 (b)). -/
  | nothingSelected
deriving DecidableEq, Repr

/-- The operation of a code (R58; the codes are those of the table, R65). -/
def decodeOperation (code : Byte) (args : Args) : Except DecodeError Instr :=
  if code = 0#8 then .ok (.init args.config)
  else if code = 1#8 then .ok .reset
  else if code = 2#8 then
    match statusOfCode args.status with
    | some st => .ok (.isError st)
    | none => .error (.unknownStatus args.status)
  else if code = 3#8 then .ok (.decode args.input args.capacity)
  else if code = 4#8 then .ok (.encode args.input args.capacity)
  else .error (.unknownOperation code)

/-- The decoder map: every (`state`, byte value) pair selects exactly one micro-operation (R59). -/
def decodeWire (state : CodecState) (b : Byte) : Instr :=
  match state with
  | .idle =>
    match classify b with
    | .start => .decIdleStart
    | .stop => .decIdleEnd
    | .escape => .decIdleEsc
    | .other => .decIdleOther b
  | .started =>
    match classify b with
    | .start => .decStartedStart
    | .stop => .decStartedEnd
    | .escape => .decStartedEsc
    | .other => .decStartedOther b
  | .escapeLatched =>
    match classify b with
    | .start => .decEscapedStart
    | .stop => .decEscapedEnd
    | .escape => .decEscapedEsc
    | .other => .decEscapedOther b
  | .checksumByte0 => .decCk0 b
  | .checksumByte1 => .decCk1 b

/-- The encoder map (R60): ENC.OPEN whenever `state = Idle`; else by the next payload byte, else by `state` alone. -/
def decodePayload (state : CodecState) (next : Option Byte) : Except DecodeError Instr :=
  match state, next with
  | .idle, _ => .ok .encOpen
  | .started, some v =>
    match isMarker v with
    | true => .ok .encEsc
    | false => .ok (.encLit v)
  | .escapeLatched, some v | .checksumByte0, some v | .checksumByte1, some v =>
    match isMarker v with
    | true => .ok (.encMark v)
    | false => .ok (.encLit v)
  | .started, none => .ok .encClose
  | .escapeLatched, none => .error .nothingSelected
  | .checksumByte0, none => .ok .encCk0
  | .checksumByte1, none => .ok .encCk1

/-- The instruction that stands for what was fetched. -/
def decodeFetched : Fetched → Except DecodeError Instr
  | .operation code args => decodeOperation code args
  | .wire state b => .ok (decodeWire state b)
  | .payload state next => decodePayload state next

/-- What each instruction is selected from, the tables of R58, R59 and R60 read the other way.  ENC.ESC is selected by any
marker; ENC.MARK is encoded in the state an in-contract encoder has (R60). -/
def encodeInstr : Instr → Fetched
  | .decIdleStart => .wire .idle 0x02#8
  | .decIdleEnd => .wire .idle 0x03#8
  | .decIdleEsc => .wire .idle 0x10#8
  | .decIdleOther b => .wire .idle b
  | .decStartedStart => .wire .started 0x02#8
  | .decStartedEnd => .wire .started 0x03#8
  | .decStartedEsc => .wire .started 0x10#8
  | .decStartedOther b => .wire .started b
  | .decEscapedStart => .wire .escapeLatched 0x02#8
  | .decEscapedEnd => .wire .escapeLatched 0x03#8
  | .decEscapedEsc => .wire .escapeLatched 0x10#8
  | .decEscapedOther b => .wire .escapeLatched b
  | .decCk0 b => .wire .checksumByte0 b
  | .decCk1 b => .wire .checksumByte1 b
  | .encOpen => .payload .idle none
  | .encEsc => .payload .started (some 0x10#8)
  | .encMark v => .payload .escapeLatched (some v)
  | .encLit v => .payload .started (some v)
  | .encClose => .payload .started none
  | .encCk0 => .payload .checksumByte0 none
  | .encCk1 => .payload .checksumByte1 none
  | .init config => .operation 0#8 { Args.zero with config := config }
  | .reset => .operation 1#8 Args.zero
  | .isError st => .operation 2#8 { Args.zero with status := statusCode st }
  | .decode input capacity => .operation 3#8 { Args.zero with input := input, capacity := capacity }
  | .encode input capacity => .operation 4#8 { Args.zero with input := input, capacity := capacity }

/-- What a word of the opcode table stands for.  Bits 7..0 are the table's byte; bits 15..8 are a `state` code (R57), zero in
every word the table gives.  A byte 0 to 4 under the state code 0 is read as an operation code with operands of zeros; every
other byte is read as a wire byte in the state of that code (R65 lets one byte stand for several rows; log entry 8). -/
def fetchedOfTableWord (_nbits w : Nat) : Option Fetched :=
  if w < 5 then some (.operation (BitVec.ofNat 8 w) Args.zero)
  else if w < 65536 then
    match stateOfCode (BitVec.ofNat 8 (w / 256)) with
    | some st => some (.wire st (BitVec.ofNat 8 w))
    | none => none
  else none

/-- The instruction the decoder reads from a word of the opcode table. -/
def decodeTableWord (nbits w : Nat) : Option Instr :=
  match fetchedOfTableWord nbits w with
  | some f =>
    match decodeFetched f with
    | .ok i => some i
    | .error _ => none
  | none => none

end Sys2Proof
end

