-- ==== Sys2Proof/Machine/State.lean ====
section
/-!
DEFINITION. The state as plain data, its value after reset, and the reasons a step can stop.
The instance (R10) is the whole architectural state.  `call` holds the variables of one DECODE or ENCODE call (R19) and is idle
between steps.  `reply` is what the last operation returned (R20).  `pending` and `draws` are the model's own (log entries 6, 2).
-/

namespace Sys2Proof.Machine

/-- The CodecInstance: all state that survives from one operation to the next (R10). -/
structure Instance where
  /-- `state` (R11) -/
  state : CodecState
  /-- `computed_checksum` (R12) -/
  computedChecksum : Word
  /-- `received_checksum` (R13) -/
  receivedChecksum : Word
  /-- `config` (R14) -/
  config : CodecConfig
deriving DecidableEq, Repr

/-- The variables of one call (R19, R75).  `produced` is the length of `out` (R32). -/
structure Call where
  /-- `in` (R30) -/
  input : List Byte
  /-- `output_capacity` (R33) -/
  capacity : Nat
  /-- the input cursor and count `consumed` (R23, R31) -/
  consumed : Nat
  /-- the bytes appended so far, in write order (R32) -/
  out : List Byte
  /-- the provisional `status` (R75) -/
  status : Status
deriving DecidableEq, Repr

/-- `produced`, the number of successful writes (R32). -/
def Call.produced (c : Call) : Nat := c.out.length

/-- The start values of a call (R75). -/
def Call.fresh (input : List Byte) (capacity : Nat) : Call :=
  { input := input, capacity := capacity, consumed := 0, out := [], status := .continue_ }

/-- No call is in progress: nothing to read, no room (log entry 10). -/
def Call.none : Call := Call.fresh [] 0

/-- The result of an operation (R20). -/
inductive Reply where
  /-- RESET returns nothing (R141); nothing has been returned before the first operation. -/
  | nothing
  /-- `(bytes_consumed, bytes_produced, status)` with the output bytes: DECODE, ENCODE, and a beat. -/
  | counts (consumed produced : Nat) (status : Status) (out : List Byte)
  /-- The boolean of IS_ERROR (R142). -/
  | verdict (b : Bool)
  /-- The instance INIT returns (R140). -/
  | created (inst : Instance)
deriving DecidableEq, Repr

/-- What the caller asks next: one of the five operations, or one beat of the suggested byte-serial binding (R45). -/
inductive Offer where
  /-- An operation code with its operands (R58). -/
  | operation (code : Byte) (args : Args)
  /-- `op` = DECODE, `in_valid` with `in_byte`, and `out_room`. -/
  | wire (b : Byte) (room : Bool)
  /-- `op` = ENCODE, `in_valid` with `in_byte`, and `out_room`. -/
  | payload (v : Byte) (room : Bool)
  /-- `op` = ENCODE, `in_end`, and `out_room`. -/
  | sliceEnd (room : Bool)
deriving DecidableEq, Repr

/-- The whole state. -/
structure State where
  /-- the instance (R10) -/
  inst : Instance
  /-- the call in progress (R19); `Call.none` between steps -/
  call : Call
  /-- what the last operation returned (R20) -/
  reply : Reply
  /-- what the caller has still to ask, first to last -/
  pending : List Offer
  /-- how many RECV_INIT values INIT has drawn -/
  draws : Nat
deriving DecidableEq, Repr

/-- An instance right after INIT with this config, `received_checksum` holding `received` (R140, R171). -/
def Instance.initial (config : CodecConfig) (received : Word) : Instance :=
  { state := .idle, computedChecksum := config.seed, receivedChecksum := received, config := config }

/-- The machine right after reset: a reset input acts as INIT with the configured config (R170; log entries 3, 4).  No call is
in progress, nothing has been returned, and the caller has asked nothing yet (log entry 6). -/
def State.reset : State :=
  { inst := Instance.initial Config.resetConfig Config.resetReceived
    call := Call.none
    reply := .nothing
    pending := []
    draws := 0 }

/-- The block has no fault: no operation fails, blocks or traps (R143), and no behaviour is to be treated as one
(93_implementation_defined.md).  The type has no constructor, so no step can raise one; that is exact, neither safe nor unsafe. -/
inductive Fault where
deriving DecidableEq, Repr

/-- The reasons a step is rejected by name. -/
inductive Refusal where
  /-- Raised by a refused arm of `exec` for an instruction without a meaning.  Safe.  No arm is refused. -/
  | notModelled (mnemonic : String)
  /-- Raised by `step` when the command port offers a code that names none of the five operations (R58, R144).  Safe: no
  such operation exists. -/
  | unknownOperation (code : Byte)
  /-- Raised by `step` when IS_ERROR is offered a code that names none of the five statuses (R57, R142).  Safe: there is no
  sixth value. -/
  | unknownStatus (code : Byte)
deriving DecidableEq, Repr

/-- The outcome of executing an instruction or a step. -/
abbrev Result := Host.Outcome State Fault Refusal

end Sys2Proof.Machine
end

