-- ==== Sys2Proof/Machine/Operands.lean ====
section
/-!
DEFINITION. The operand accesses: the one read of the input (R31), the writes of the registers the micro-operations name
(R22), and the advance of the input cursor (R23).  Each is one update of one field.
-/

namespace Sys2Proof.Machine

/-- `in[consumed]` where `consumed < n` (R31, R78). -/
def State.inputByte (s : State) : Option Byte := s.call.input[s.call.consumed]?

/-- `inst.state <- st`. -/
def State.setState (s : State) (st : CodecState) : State :=
  { s with inst := { s.inst with state := st } }

/-- `inst.computed_checksum <- w`. -/
def State.setComputed (s : State) (w : Word) : State :=
  { s with inst := { s.inst with computedChecksum := w } }

/-- `inst.received_checksum <- w`. -/
def State.setReceived (s : State) (w : Word) : State :=
  { s with inst := { s.inst with receivedChecksum := w } }

/-- `status <- st` (R24: not a register of the instance). -/
def State.setStatus (s : State) (st : Status) : State :=
  { s with call := { s.call with status := st } }

/-- `consumed <- consumed + 1` (R23, R76 (a)). -/
def State.consume (s : State) : State :=
  { s with call := { s.call with consumed := s.call.consumed + 1 } }

/-- `out <- out ++ b`, the output index `produced` receives `b` (R32). -/
def State.append (s : State) (b : Byte) : State :=
  { s with call := { s.call with out := s.call.out ++ [b] } }

/-- What the operation returns (R20). -/
def State.setReply (s : State) (r : Reply) : State := { s with reply := r }

end Sys2Proof.Machine
end

