-- ==== Sys2Proof/Machine/Flags.lean ====
section
/-!
DEFINITION. The block has no flags (R24).  What stands in their place is the status: which statuses are errors (R142), which
are terminal (R150), and the predicates the micro-operations decide by.
-/

namespace Sys2Proof.Machine

/-- "`InvalidChar`/`InvalidChecksum` are errors; all others are not" (R142). -/
def statusIsError : Status → Bool
  | .done => false
  | .continue_ => false
  | .overflow => false
  | .invalidChar => true
  | .invalidChecksum => true

/-- A status after which the instance has been reset (R18, R150). -/
def statusIsTerminal : Status → Bool
  | .done => true
  | .continue_ => false
  | .overflow => false
  | .invalidChar => true
  | .invalidChecksum => true

/-- `CkEnabled`: the update function is present (R15). -/
def State.ckEnabled (s : State) : Bool := s.inst.config.fn.isSome

/-- The comparison of DEC.CK1, all 16 bits (R95, R56). -/
def State.checksumsMatch (s : State) : Bool := s.inst.receivedChecksum == s.inst.computedChecksum

end Sys2Proof.Machine
end

