-- ==== Sys2Proof/Machine/Ops.lean ====
section
/-!
DEFINITION. The shared primitives: the update function's value, CkUpdate (R71), TryEmit (R70, R74), ResetInst (R72), the
opening of a call (R75) and its return, which on a terminal status is the block's whole handling of an error (R158).
-/

namespace Sys2Proof

/-- The result the table lists for a pair, the first entry that matches. -/
def ChecksumFn.find : List (Word × Byte × Word) → Word → Byte → Option Word
  | [], _, _ => none
  | (acc, b, result) :: rest, acc', b' =>
    if acc = acc' ∧ b = b' then some result else ChecksumFn.find rest acc' b'

/-- `checksum_update_fn(accumulator, byte)` (R8, R71). -/
def ChecksumFn.apply (f : ChecksumFn) (acc : Word) (b : Byte) : Word :=
  (ChecksumFn.find f.table acc b).getD f.unlisted

end Sys2Proof

namespace Sys2Proof.Machine

/-- The accumulator after one `CkUpdate` (R71): unchanged when the checksum is disabled. -/
def ckStep (config : CodecConfig) (acc : Word) (b : Byte) : Word :=
  match config.fn with
  | some f => f.apply acc b
  | none => acc

/-- `CkUpdate(b)` (R71). -/
def State.ckUpdate (s : State) (b : Byte) : State :=
  s.setComputed (ckStep s.inst.config s.inst.computedChecksum b)

/-- Capacity remains: `produced < output_capacity` (R70, R76 (b)). -/
def State.hasRoom (s : State) : Bool := decide (s.call.produced < s.call.capacity)

/-- `TryEmit(b)` and what follows it (R70, R74, R77): with room the byte is appended and `next` goes on; without room the
status is `Overflow` and nothing else has happened. -/
def State.emitThen (s : State) (b : Byte) (next : State → State) : State :=
  if s.hasRoom then next (s.append b) else s.setStatus .overflow

/-- `ResetInst()` (R72): `received_checksum` and `config` are not written. -/
def State.resetInst (s : State) : State :=
  (s.setState .idle).setComputed s.inst.config.seed

/-- The start of a DECODE or ENCODE call (R75). -/
def State.openCall (s : State) (input : List Byte) (capacity : Nat) : State :=
  { s with call := Call.fresh input capacity }

/-- `ResetInst()` exactly when the status of the call is terminal (R18, R97, R120). -/
def State.resetIfTerminal (s : State) : State :=
  if statusIsTerminal s.call.status then s.resetInst else s

/-- The return of a call: the reset on a terminal status, then the triple with the output (R80, R110, R158); the variables of
the call end with it (R19). -/
def State.returnCall (s : State) : State :=
  { (s.resetIfTerminal.setReply (.counts s.call.consumed s.call.produced s.call.status s.call.out)) with
    call := Call.none }

/-- `f` unless an earlier micro-operation of the call overflowed: "ENCODE returns immediately, skipping all later phases"
(R110). -/
def State.unlessOverflow (s : State) (f : State → State) : State :=
  if s.call.status = .overflow then s else f s

end Sys2Proof.Machine
end

