-- ==== Sys2Proof/Machine/Control.lean ====
section
/-!
DEFINITION. The control operations INIT (R140), RESET (R141) and IS_ERROR (R142).  None touches a buffer, none can fail.
-/

namespace Sys2Proof.Machine

/-- INIT (R140): a new instance, all progress discarded (D21).  `received_checksum` is a free value, a fresh one at each INIT
(RECV_INIT, log entry 2). -/
def initCall (config : CodecConfig) (s : State) : State :=
  { s with
    inst := Instance.initial config (Config.recvInit s.draws)
    reply := .created (Instance.initial config (Config.recvInit s.draws))
    draws := s.draws + 1 }

/-- RESET (R141): ResetInst, and nothing returned. -/
def resetCall (s : State) : State := s.resetInst.setReply .nothing

/-- IS_ERROR (R142): a function of its operand that reads no instance. -/
def isErrorCall (status : Status) (s : State) : State := s.setReply (.verdict (statusIsError status))

/-- The meaning of INIT (R140). -/
def execInit (config : CodecConfig) (s : State) : Result := .next (initCall config s)

/-- The meaning of RESET (R141). -/
def execReset (s : State) : Result := .next (resetCall s)

/-- The meaning of IS_ERROR (R142). -/
def execIsError (status : Status) (s : State) : Result := .next (isErrorCall status s)

end Sys2Proof.Machine
end

