-- ==== Sys2Proof/Machine/Decoder.lean ====
section
/-!
DEFINITION. The decoder: its 14 micro-operations (R82 to R95), DecByte (R81) and DECODE (R80).  The order inside a
micro-operation is that of R77: TryEmit, the transition's writes, CkUpdate unless the state before was a checksum state, the
byte counted consumed.  A micro-operation never resets the instance; the return of the call does (R97).
-/

namespace Sys2Proof.Machine

/-- The end of a micro-operation outside the checksum states: CkUpdate with the raw byte, the byte consumed, the status
(R77, R81, R96, R99). -/
def State.accept (s : State) (b : Byte) (st : Status) : State :=
  ((s.ckUpdate b).consume).setStatus st

/-- An illegal byte: `InvalidChar`, nothing emitted, `state` not written, the byte consumed (R61, R96). -/
def State.reject (s : State) (b : Byte) : State := s.accept b .invalidChar

/-- The second byte of an escaped form: its value is emitted, `state <- Started` (R90, R91, R92). -/
def State.unescape (s : State) (b : Byte) : State :=
  s.emitThen b fun s => (s.setState .started).accept b .continue_

/-- DEC.IDLE.START (R82). -/
def decIdleStart (s : State) : State := (s.setState .started).accept startByte .continue_

/-- DEC.IDLE.END (R83). -/
def decIdleEnd (s : State) : State := s.reject endByte

/-- DEC.IDLE.ESC (R84). -/
def decIdleEsc (s : State) : State := s.reject escapeByte

/-- DEC.IDLE.OTHER (R85). -/
def decIdleOther (b : Byte) (s : State) : State := s.reject b

/-- DEC.STARTED.START (R86). -/
def decStartedStart (s : State) : State := s.reject startByte

/-- DEC.STARTED.END (R87). -/
def decStartedEnd (s : State) : State :=
  if s.ckEnabled then (s.setState .checksumByte0).accept endByte .continue_
  else (s.setState .idle).accept endByte .done

/-- DEC.STARTED.ESC (R88). -/
def decStartedEsc (s : State) : State := (s.setState .escapeLatched).accept escapeByte .continue_

/-- DEC.STARTED.OTHER (R89). -/
def decStartedOther (b : Byte) (s : State) : State := s.emitThen b fun s => s.accept b .continue_

/-- DEC.ESCAPED.START (R90). -/
def decEscapedStart (s : State) : State := s.unescape startByte

/-- DEC.ESCAPED.END (R91). -/
def decEscapedEnd (s : State) : State := s.unescape endByte

/-- DEC.ESCAPED.ESC (R92). -/
def decEscapedEsc (s : State) : State := s.unescape escapeByte

/-- DEC.ESCAPED.OTHER (R93): no emit is attempted. -/
def decEscapedOther (b : Byte) (s : State) : State := s.reject b

/-- DEC.CK0 (R94): the low byte lane, no CkUpdate. -/
def decCk0 (b : Byte) (s : State) : State :=
  (((s.setReceived (withLowByte s.inst.receivedChecksum b)).setState .checksumByte1).consume).setStatus .continue_

/-- The status of DEC.CK1: the comparison, after the high byte has been stored (R95). -/
def State.judgeChecksum (s : State) : State :=
  s.setStatus (if s.checksumsMatch then .done else .invalidChecksum)

/-- DEC.CK1 (R95): the high byte lane, no CkUpdate. -/
def decCk1 (b : Byte) (s : State) : State :=
  (((s.setReceived (withHighByte s.inst.receivedChecksum b)).setState .idle).consume).judgeChecksum

/-- `DecByte(b)`: exactly one micro-operation, chosen by the state before and the class of the byte (R81, R59). -/
def decByte (b : Byte) (s : State) : State :=
  match s.inst.state with
  | .idle =>
    match classify b with
    | .start => decIdleStart s
    | .stop => decIdleEnd s
    | .escape => decIdleEsc s
    | .other => decIdleOther b s
  | .started =>
    match classify b with
    | .start => decStartedStart s
    | .stop => decStartedEnd s
    | .escape => decStartedEsc s
    | .other => decStartedOther b s
  | .escapeLatched =>
    match classify b with
    | .start => decEscapedStart s
    | .stop => decEscapedEnd s
    | .escape => decEscapedEsc s
    | .other => decEscapedOther b s
  | .checksumByte0 => decCk0 b s
  | .checksumByte1 => decCk1 b s

/-- The driving loop of DECODE, at most `k` more bytes: while the status is `Continue` and input remains (R80). -/
def decodeLoop : Nat → State → State
  | 0, s => s
  | k + 1, s =>
    if s.call.status = .continue_ then
      match s.inputByte with
      | some b => decodeLoop k (decByte b s)
      | none => s
    else s

/-- `DECODE(inst, in, output_capacity)` (R80): each pass consumes a byte or leaves the loop, so `n` passes are enough. -/
def decodeCall (input : List Byte) (capacity : Nat) (s : State) : State :=
  (decodeLoop input.length (s.openCall input capacity)).returnCall

/-- The meaning of DEC.IDLE.START (R82). -/
def execDecIdleStart (s : State) : Result := .next (decIdleStart s)

/-- The meaning of DEC.IDLE.END (R83). -/
def execDecIdleEnd (s : State) : Result := .next (decIdleEnd s)

/-- The meaning of DEC.IDLE.ESC (R84). -/
def execDecIdleEsc (s : State) : Result := .next (decIdleEsc s)

/-- The meaning of DEC.IDLE.OTHER (R85). -/
def execDecIdleOther (b : Byte) (s : State) : Result := .next (decIdleOther b s)

/-- The meaning of DEC.STARTED.START (R86). -/
def execDecStartedStart (s : State) : Result := .next (decStartedStart s)

/-- The meaning of DEC.STARTED.END (R87). -/
def execDecStartedEnd (s : State) : Result := .next (decStartedEnd s)

/-- The meaning of DEC.STARTED.ESC (R88). -/
def execDecStartedEsc (s : State) : Result := .next (decStartedEsc s)

/-- The meaning of DEC.STARTED.OTHER (R89). -/
def execDecStartedOther (b : Byte) (s : State) : Result := .next (decStartedOther b s)

/-- The meaning of DEC.ESCAPED.START (R90). -/
def execDecEscapedStart (s : State) : Result := .next (decEscapedStart s)

/-- The meaning of DEC.ESCAPED.END (R91). -/
def execDecEscapedEnd (s : State) : Result := .next (decEscapedEnd s)

/-- The meaning of DEC.ESCAPED.ESC (R92). -/
def execDecEscapedEsc (s : State) : Result := .next (decEscapedEsc s)

/-- The meaning of DEC.ESCAPED.OTHER (R93). -/
def execDecEscapedOther (b : Byte) (s : State) : Result := .next (decEscapedOther b s)

/-- The meaning of DEC.CK0 (R94). -/
def execDecCk0 (b : Byte) (s : State) : Result := .next (decCk0 b s)

/-- The meaning of DEC.CK1 (R95). -/
def execDecCk1 (b : Byte) (s : State) : Result := .next (decCk1 b s)

/-- The meaning of DECODE (R80). -/
def execDecode (input : List Byte) (capacity : Nat) (s : State) : Result :=
  .next (decodeCall input capacity s)

end Sys2Proof.Machine
end

