-- ==== Sys2Proof/Machine/Encoder.lean ====
section
/-!
DEFINITION. The encoder: its 7 micro-operations (R111 to R117) and ENCODE (R110).  The order inside a micro-operation is that
of R77: TryEmit, CkUpdate where the rule says so, the state change.  The advance of the cursor that R110 writes after
ENC.MARK and ENC.LIT belongs to them here, as in the opcode table ("consumed + 1"; log entry 14).
-/

namespace Sys2Proof.Machine

/-- ENC.OPEN (R111). -/
def encOpen (s : State) : State :=
  s.emitThen startByte fun s => (s.ckUpdate startByte).setState .started

/-- ENC.ESC (R112). -/
def encEsc (s : State) : State :=
  s.emitThen escapeByte fun s => (s.ckUpdate escapeByte).setState .escapeLatched

/-- ENC.MARK(v) (R113). -/
def encMark (v : Byte) (s : State) : State :=
  s.emitThen v fun s => ((s.ckUpdate v).setState .started).consume

/-- ENC.LIT(v) (R114): `state` is not written. -/
def encLit (v : Byte) (s : State) : State :=
  s.emitThen v fun s => (s.ckUpdate v).consume

/-- What follows the END byte (R115): the trailer when the checksum is enabled, else the frame is complete. -/
def State.afterEnd (s : State) : State :=
  if s.ckEnabled then (s.setState .checksumByte0).setStatus .continue_
  else (s.setState .idle).setStatus .done

/-- ENC.CLOSE (R115). -/
def encClose (s : State) : State :=
  s.emitThen endByte fun s => (s.ckUpdate endByte).afterEnd

/-- ENC.CK0 (R116): the low byte, no escaping, no CkUpdate. -/
def encCk0 (s : State) : State :=
  s.emitThen (lowByte s.inst.computedChecksum) fun s => s.setState .checksumByte1

/-- ENC.CK1 (R117): the high byte, no escaping, no CkUpdate. -/
def encCk1 (s : State) : State :=
  s.emitThen (highByte s.inst.computedChecksum) fun s => (s.setState .idle).setStatus .done

/-- A micro-operation guarded by the value of `state`, as the phases of R110 guard theirs. -/
def State.whenState (s : State) (st : CodecState) (f : State → State) : State :=
  if s.inst.state = st then f s else s

/-- One payload byte in phase 2 of R110. -/
def encodeByte (v : Byte) (s : State) : State :=
  if isMarker v then (s.whenState .started encEsc).unlessOverflow (encMark v)
  else encLit v s

/-- Phase 2 of R110, at most `k` more payload bytes. -/
def encodeLoop : Nat → State → State
  | 0, s => s
  | k + 1, s =>
    if s.call.status = .overflow then s
    else
      match s.inputByte with
      | some v => encodeLoop k (encodeByte v s)
      | none => s

/-- The four phases of R110, each skipped once a write has overflowed. -/
def encodePhases (s : State) : State :=
  ((((s.whenState .idle encOpen).unlessOverflow (encodeLoop s.call.input.length)).unlessOverflow
    fun s => s.whenState .started encClose).unlessOverflow
    fun s => s.whenState .checksumByte0 encCk0).unlessOverflow
    fun s => s.whenState .checksumByte1 encCk1

/-- `ENCODE(inst, in, output_capacity)` (R110). -/
def encodeCall (input : List Byte) (capacity : Nat) (s : State) : State :=
  (encodePhases (s.openCall input capacity)).returnCall

/-- The meaning of ENC.OPEN (R111). -/
def execEncOpen (s : State) : Result := .next (encOpen s)

/-- The meaning of ENC.ESC (R112). -/
def execEncEsc (s : State) : Result := .next (encEsc s)

/-- The meaning of ENC.MARK (R113). -/
def execEncMark (v : Byte) (s : State) : Result := .next (encMark v s)

/-- The meaning of ENC.LIT (R114). -/
def execEncLit (v : Byte) (s : State) : Result := .next (encLit v s)

/-- The meaning of ENC.CLOSE (R115). -/
def execEncClose (s : State) : Result := .next (encClose s)

/-- The meaning of ENC.CK0 (R116). -/
def execEncCk0 (s : State) : Result := .next (encCk0 s)

/-- The meaning of ENC.CK1 (R117). -/
def execEncCk1 (s : State) : Result := .next (encCk1 s)

/-- The meaning of ENCODE (R110). -/
def execEncode (input : List Byte) (capacity : Nat) (s : State) : Result :=
  .next (encodeCall input capacity s)

end Sys2Proof.Machine
end

