-- ==== Sys2Proof/Machine/Dispatch.lean ====
section
/-!
DEFINITION. One arm per row of the opcode table, each one direct call of that row's meaning.
-/

namespace Sys2Proof.Machine

def exec (i : Instr) (s : State) : Host.Outcome State Fault Refusal :=
  match i with
  | .decIdleStart => Sys2Proof.Machine.execDecIdleStart s
  | .decIdleEnd => Sys2Proof.Machine.execDecIdleEnd s
  | .decIdleEsc => Sys2Proof.Machine.execDecIdleEsc s
  | .decIdleOther b => Sys2Proof.Machine.execDecIdleOther b s
  | .decStartedStart => Sys2Proof.Machine.execDecStartedStart s
  | .decStartedEnd => Sys2Proof.Machine.execDecStartedEnd s
  | .decStartedEsc => Sys2Proof.Machine.execDecStartedEsc s
  | .decStartedOther b => Sys2Proof.Machine.execDecStartedOther b s
  | .decEscapedStart => Sys2Proof.Machine.execDecEscapedStart s
  | .decEscapedEnd => Sys2Proof.Machine.execDecEscapedEnd s
  | .decEscapedEsc => Sys2Proof.Machine.execDecEscapedEsc s
  | .decEscapedOther b => Sys2Proof.Machine.execDecEscapedOther b s
  | .decCk0 b => Sys2Proof.Machine.execDecCk0 b s
  | .decCk1 b => Sys2Proof.Machine.execDecCk1 b s
  | .encOpen => Sys2Proof.Machine.execEncOpen s
  | .encEsc => Sys2Proof.Machine.execEncEsc s
  | .encMark v => Sys2Proof.Machine.execEncMark v s
  | .encLit v => Sys2Proof.Machine.execEncLit v s
  | .encClose => Sys2Proof.Machine.execEncClose s
  | .encCk0 => Sys2Proof.Machine.execEncCk0 s
  | .encCk1 => Sys2Proof.Machine.execEncCk1 s
  | .init config => Sys2Proof.Machine.execInit config s
  | .reset => Sys2Proof.Machine.execReset s
  | .isError status => Sys2Proof.Machine.execIsError status s
  | .decode input capacity => Sys2Proof.Machine.execDecode input capacity s
  | .encode input capacity => Sys2Proof.Machine.execEncode input capacity s

end Sys2Proof.Machine
end

