-- ==== Sys2Proof/Machine/Port.lean ====
section
/-!
DEFINITION. How what the caller offers becomes an instruction and its answer.  An operation (R58) runs as it is.  A beat of the
suggested byte-serial binding (R45) is one micro-operation: its call holds the offered byte (or none) and room for one
byte or none, and the answer is `in_take` (consumed), `out_byte` (out) and `status`; a terminal status resets the instance
within the beat, since the binding adds no state (log entry 7).
-/

namespace Sys2Proof.Machine

/-- What the instruction is selected from, given `state` (R58, R59, R60). -/
def Offer.fetched (o : Offer) (state : CodecState) : Fetched :=
  match o with
  | .operation code args => .operation code args
  | .wire b _ => .wire state b
  | .payload v _ => .payload state (some v)
  | .sliceEnd _ => .payload state none

/-- The room of a beat as a capacity: `out_room` (R45). -/
def roomCapacity : Bool → Nat
  | true => 1
  | false => 0

/-- The state in which the offered instruction runs: a beat opens its call, an operation does so itself. -/
def Offer.place (o : Offer) (s : State) : State :=
  match o with
  | .operation _ _ => s
  | .wire b room => s.openCall [b] (roomCapacity room)
  | .payload v room => s.openCall [v] (roomCapacity room)
  | .sliceEnd room => s.openCall [] (roomCapacity room)

/-- The answer: a beat returns its call, an operation has done so itself. -/
def Offer.settle (o : Offer) (r : Result) : Result :=
  match o, r with
  | .operation _ _, r => r
  | .wire _ _, .next s => .next s.returnCall
  | .payload _ _, .next s => .next s.returnCall
  | .sliceEnd _, .next s => .next s.returnCall
  | _, .fault e => .fault e
  | _, .refused e => .refused e

/-- What a step does when nothing is selected: an unknown code is rejected by name; an encoder beat that selects nothing
returns `(0, 0, Continue)` (R124 (b)). -/
def Offer.unselected (o : Offer) (e : DecodeError) (s : State) : Result :=
  match e with
  | .unknownOperation code => .refused (.unknownOperation code)
  | .unknownStatus code => .refused (.unknownStatus code)
  | .nothingSelected => .next (o.place s).returnCall

/-- What is offered for a word of the opcode table; a decoder row's byte is offered with room. -/
def offerOfFetched : Fetched → Offer
  | .operation code args => .operation code args
  | .wire _ b => .wire b true
  | .payload _ (some v) => .payload v true
  | .payload _ none => .sliceEnd true

/-- The instance in which that offer selects the row: a decoder or encoder row needs its `state` (R65). -/
def stateForFetched (f : Fetched) (state : CodecState) : CodecState :=
  match f with
  | .operation _ _ => state
  | .wire st _ => st
  | .payload st _ => st

/-- The state in which the next step fetches exactly `f`. -/
def State.offering (s : State) (f : Fetched) : State :=
  { (s.setState (stateForFetched f s.inst.state)) with pending := offerOfFetched f :: s.pending }

end Sys2Proof.Machine
end

