-- ==== Sys2Proof/Machine/Step.lean ====
section
/-!
DEFINITION. One step: the first thing the caller has asked is taken, its instruction selected and executed (R42: one after
another, each to its end).  When the caller asks nothing nothing happens: between calls the instance does not change (R42, R187).
-/

namespace Sys2Proof.Machine

/-- One operation, or one beat. -/
def step (s : State) : Host.Outcome State Fault Refusal :=
  match s.pending with
  | [] => .next s
  | o :: rest =>
    match decodeFetched (o.fetched s.inst.state) with
    | .ok i => o.settle (exec i (o.place { s with pending := rest }))
    | .error e => o.unselected e { s with pending := rest }

/-- `s` with the instruction of a table word offered as the next thing to do (log entries 6, 8). -/
def State.withFetchWord (s : State) (nbits w : Nat) : State :=
  match fetchedOfTableWord nbits w with
  | some f => s.offering f
  | none => s

end Sys2Proof.Machine
end

