-- ==== Sys2Proof/Safety.lean ====
section
/-!
DEFINITION. The terms claims are stated in: the wire format as a function of the payload (R52), the between-frames condition
(R172), the caller's contract (R118, U3), the invariant of the machine, the micro-operations a call performs (R80, R110, R186),
and the callers that resume after `Overflow` (R102, R125).
-/

namespace Sys2Proof.Safety

open Sys2Proof.Machine

/-- `Body(v)` (R52, R53). -/
def body (v : Byte) : List Byte :=
  if v = 0x02#8 ∨ v = 0x03#8 ∨ v = 0x10#8 then [0x10#8, v] else [v]

/-- The wire bytes from START through END (R52), those the checksum covers (R55). -/
def covered (p : List Byte) : List Byte := 0x02#8 :: (p.flatMap body ++ [0x03#8])

/-- The accumulator once the wire byte `b` is folded in (R71): untouched when the update function is absent. -/
def folded (i : Instance) (b : Byte) : Word :=
  match i.config.fn with
  | some f => f.apply i.computedChecksum b
  | none => i.computedChecksum

/-- The accumulator after the wire bytes `bytes`, in wire order (R55). -/
def foldChecksum (f : ChecksumFn) (acc : Word) (bytes : List Byte) : Word := bytes.foldl f.apply acc

/-- `Trailer` (R52): two bytes, low byte first, or nothing. -/
def trailer (config : CodecConfig) (p : List Byte) : List Byte :=
  match config.fn with
  | none => []
  | some f =>
    let c := foldChecksum f config.seed (covered p)
    [c.extractLsb' 0 8, c.extractLsb' 8 8]

/-- `Frame(p)` (R52). -/
def frame (config : CodecConfig) (p : List Byte) : List Byte := covered p ++ trailer config p

/-- How many bytes of a payload are marker-valued (R126). -/
def markerCount (p : List Byte) : Nat := (p.filter fun v => v = 0x02#8 ∨ v = 0x03#8 ∨ v = 0x10#8).length

/-- The between-frames condition (R172). -/
def BetweenFrames (i : Instance) : Prop := i.state = .idle ∧ i.computedChecksum = i.config.seed

/-- A state the checksum makes possible: the two checksum states are entered only when it is enabled (R11, R15). -/
def ChecksumStatesEnabled (i : Instance) : Prop :=
  (i.state = .checksumByte0 ∨ i.state = .checksumByte1) → i.config.fn.isSome = true

/-- `Idle` always stands with the accumulator at the seed (R18, R172). -/
def IdleIsFresh (i : Instance) : Prop := i.state = .idle → i.computedChecksum = i.config.seed

/-- The invariant of a step: no call is open between steps (R19), `Idle` is fresh (R172), and the checksum states are entered
only when the checksum is enabled (R15). -/
structure Inv (s : State) : Prop where
  noCall : s.call = Call.none
  idleIsFresh : IdleIsFresh s.inst
  checksumStates : ChecksumStatesEnabled s.inst

/-- `state` and the input of an ENCODE agree with a row of the table of R118 (the contract predicate of U3). -/
def encodeInContract (state : CodecState) (input : List Byte) : Prop :=
  match state with
  | .idle => True
  | .started => True
  | .escapeLatched => ∃ v rest, input = v :: rest ∧ (v = 0x02#8 ∨ v = 0x03#8 ∨ v = 0x10#8)
  | .checksumByte0 => input = []
  | .checksumByte1 => input = []

/-- The rows of the table that write a byte ("emits" of the decoder rows, every encoder row; R157, R60). -/
def emits : Instr → Bool
  | .decIdleStart => false
  | .decIdleEnd => false
  | .decIdleEsc => false
  | .decIdleOther _ => false
  | .decStartedStart => false
  | .decStartedEnd => false
  | .decStartedEsc => false
  | .decStartedOther _ => true
  | .decEscapedStart => true
  | .decEscapedEnd => true
  | .decEscapedEsc => true
  | .decEscapedOther _ => false
  | .decCk0 _ => false
  | .decCk1 _ => false
  | .encOpen => true
  | .encEsc => true
  | .encMark _ => true
  | .encLit _ => true
  | .encClose => true
  | .encCk0 => true
  | .encCk1 => true
  | .init _ => false
  | .reset => false
  | .isError _ => false
  | .decode _ _ => false
  | .encode _ _ => false

/-- The micro-operations among the rows (R59, R60); the other five are operations (R58). -/
def isMicroOperation : Instr → Bool
  | .init _ => false
  | .reset => false
  | .isError _ => false
  | .decode _ _ => false
  | .encode _ _ => false
  | .decIdleStart => true
  | .decIdleEnd => true
  | .decIdleEsc => true
  | .decIdleOther _ => true
  | .decStartedStart => true
  | .decStartedEnd => true
  | .decStartedEsc => true
  | .decStartedOther _ => true
  | .decEscapedStart => true
  | .decEscapedEnd => true
  | .decEscapedEsc => true
  | .decEscapedOther _ => true
  | .decCk0 _ => true
  | .decCk1 _ => true
  | .encOpen => true
  | .encEsc => true
  | .encMark _ => true
  | .encLit _ => true
  | .encClose => true
  | .encCk0 => true
  | .encCk1 => true

/-- Run instructions one after another. -/
def execAll : List Instr → State → Result
  | [], s => .next s
  | i :: rest, s =>
    match exec i s with
    | .next t => execAll rest t
    | .fault e => .fault e
    | .refused e => .refused e

/-- The micro-operations a DECODE call performs from an open call: while the status is `Continue` and input remains, the one
the map of R59 selects (R80, R81).  `k` bounds how many. -/
def decodeTrace : Nat → State → List Instr
  | 0, _ => []
  | k + 1, s =>
    match s.call.status, s.call.input[s.call.consumed]? with
    | .continue_, some b =>
      match exec (decodeWire s.inst.state b) s with
      | .next t => decodeWire s.inst.state b :: decodeTrace k t
      | _ => []
    | _, _ => []

/-- The micro-operations an ENCODE call performs from an open call: while the status is `Continue`, the one the map of R60
selects (R60, R110).  `k` bounds how many. -/
def encodeTrace : Nat → State → List Instr
  | 0, _ => []
  | k + 1, s =>
    match s.call.status, decodePayload s.inst.state s.call.input[s.call.consumed]? with
    | .continue_, .ok i =>
      match exec i s with
      | .next t => i :: encodeTrace k t
      | _ => []
    | _, _ => []

/-- What a caller has collected over several calls: bytes consumed, output, the last status, and the state it left. -/
structure Tally where
  consumed : Nat
  out : List Byte
  status : Status
  last : State
deriving DecidableEq, Repr

/-- What a state just returned from one call tells. -/
def tallyOf (t : State) : Tally :=
  match t.reply with
  | .counts consumed _ status out => { consumed := consumed, out := out, status := status, last := t }
  | _ => { consumed := 0, out := [], status := .continue_, last := t }

/-- An earlier call's counts put before a tally. -/
def Tally.after (later earlier : Tally) : Tally :=
  { later with consumed := earlier.consumed + later.consumed, out := earlier.out ++ later.out }

/-- One DECODE call. -/
def decodeOnce (input : List Byte) (capacity : Nat) (s : State) : Tally :=
  match exec (.decode input capacity) s with
  | .next t => tallyOf t
  | _ => { consumed := 0, out := [], status := .continue_, last := s }

/-- One ENCODE call. -/
def encodeOnce (input : List Byte) (capacity : Nat) (s : State) : Tally :=
  match exec (.encode input capacity) s with
  | .next t => tallyOf t
  | _ => { consumed := 0, out := [], status := .continue_, last := s }

/-- The caller of R125: ENCODE with the payload, and after every `Overflow` again with the unconsumed remainder and the next
capacity, until another status or no capacity is left. -/
def drainEncode : List Nat → List Byte → State → Tally
  | [], _, s => { consumed := 0, out := [], status := .overflow, last := s }
  | c :: caps, p, s =>
    if (encodeOnce p c s).status = .overflow then
      (drainEncode caps (p.drop (encodeOnce p c s).consumed) (encodeOnce p c s).last).after (encodeOnce p c s)
    else encodeOnce p c s

/-- The caller of R102: wire bytes arrive in pieces, each with the room of that call; what a call leaves unconsumed on
`Overflow` is put before the next piece (R176); a terminal status ends it. -/
def feedDecode : List (List Byte × Nat) → List Byte → State → Tally
  | [], _, s => { consumed := 0, out := [], status := .continue_, last := s }
  | (piece, c) :: rest, carry, s =>
    if statusIsTerminal (decodeOnce (carry ++ piece) c s).status then decodeOnce (carry ++ piece) c s
    else
      match rest with
      | [] => decodeOnce (carry ++ piece) c s
      | _ :: _ =>
        (feedDecode rest ((carry ++ piece).drop (decodeOnce (carry ++ piece) c s).consumed)
          (decodeOnce (carry ++ piece) c s).last).after (decodeOnce (carry ++ piece) c s)

end Sys2Proof.Safety
end

