-- ==== Sys2Proof/Certificates/Slice0/Obligations.lean ====
section
/-!
DEFINITION. The statements for the provers.  Each says what the machine does, in explicit values of the fields; a result
statement gives the whole next state, so it is completion, effect and frame at once (what a record update does not name is
unchanged: `{ s with … }`).  Each docstring names the rules of spec/ it formalises.
-/

open Sys2Proof Sys2Proof.Machine Sys2Proof.Safety

/-! ### Selection and encoding -/

/-- R59: the decoder map, cell by cell; every (`state`, byte value) pair selects exactly one micro-operation. -/
def Obligations.WireMapSelectsOneRow : Prop :=
  ∀ b : Byte,
    (decodeWire .idle b =
      if b = 0x02#8 then .decIdleStart else if b = 0x03#8 then .decIdleEnd
      else if b = 0x10#8 then .decIdleEsc else .decIdleOther b) ∧
    (decodeWire .started b =
      if b = 0x02#8 then .decStartedStart else if b = 0x03#8 then .decStartedEnd
      else if b = 0x10#8 then .decStartedEsc else .decStartedOther b) ∧
    (decodeWire .escapeLatched b =
      if b = 0x02#8 then .decEscapedStart else if b = 0x03#8 then .decEscapedEnd
      else if b = 0x10#8 then .decEscapedEsc else .decEscapedOther b) ∧
    decodeWire .checksumByte0 b = .decCk0 b ∧ decodeWire .checksumByte1 b = .decCk1 b

/-- R60: the encoder map: ENC.OPEN in `Idle`; else by the next payload byte; else, with no input, by `state`. -/
def Obligations.PayloadMapSelectsOneRow : Prop :=
  (∀ next : Option Byte, decodePayload .idle next = .ok .encOpen) ∧
  (∀ v : Byte, decodePayload .started (some v) =
    if v = 0x02#8 ∨ v = 0x03#8 ∨ v = 0x10#8 then .ok .encEsc else .ok (.encLit v)) ∧
  (∀ (st : CodecState) (v : Byte), st ≠ .idle → st ≠ .started → decodePayload st (some v) =
    if v = 0x02#8 ∨ v = 0x03#8 ∨ v = 0x10#8 then .ok (.encMark v) else .ok (.encLit v)) ∧
  decodePayload .started none = .ok .encClose ∧
  decodePayload .checksumByte0 none = .ok .encCk0 ∧
  decodePayload .checksumByte1 none = .ok .encCk1 ∧
  decodePayload .escapeLatched none = .error .nothingSelected

/-- R58, R57: the five operation codes and the five status codes; any other is rejected by name (the rejection is the model's,
log entry 9). -/
def Obligations.OperationCodesSelect : Prop :=
  (∀ args : Args, decodeOperation 0#8 args = .ok (.init args.config)) ∧
  (∀ args : Args, decodeOperation 1#8 args = .ok .reset) ∧
  (∀ (args : Args) (st : Status),
    decodeOperation 2#8 { args with status := statusCode st } = .ok (.isError st)) ∧
  (∀ args : Args, 5 ≤ args.status.toNat → decodeOperation 2#8 args = .error (.unknownStatus args.status)) ∧
  (∀ args : Args, decodeOperation 3#8 args = .ok (.decode args.input args.capacity)) ∧
  (∀ args : Args, decodeOperation 4#8 args = .ok (.encode args.input args.capacity)) ∧
  (∀ (code : Byte) (args : Args), 5 ≤ code.toNat → decodeOperation code args = .error (.unknownOperation code))

/-- R65, R58, R59: some words of the opcode table.  Reading bytes 0 to 4 as operations and bits 15..8 as a `state` code is the
model's choice (log entry 8). -/
def Obligations.TableWordsDecode : Prop :=
  decodeTableWord 8 0 = some (.init { seed := 0#16, fn := none }) ∧
  decodeTableWord 8 1 = some .reset ∧
  decodeTableWord 8 2 = some (.isError .done) ∧
  decodeTableWord 8 3 = some (.decode [] 0) ∧
  decodeTableWord 8 4 = some (.encode [] 0) ∧
  decodeTableWord 8 0x10 = some .decIdleEsc ∧
  decodeTableWord 8 0x41 = some (.decIdleOther 0x41#8) ∧
  decodeTableWord 16 0x0102 = some .decStartedStart ∧
  decodeTableWord 16 0x0203 = some .decEscapedEnd ∧
  decodeTableWord 16 0x0322 = some (.decCk0 0x22#8) ∧
  decodeTableWord 16 0x040E = some (.decCk1 0x0E#8) ∧
  decodeTableWord 16 0x0500 = none

/-- R58, R59, R60, R65: for every well-formed instruction, with every operand, what it is encoded as selects it. -/
def Obligations.EncodedInstructionsDecodeBack : Prop :=
  ∀ i : Instr, i.wellFormed = true → decodeFetched (encodeInstr i) = .ok i

/-- R59, R62: the decoder's selection forgets nothing: the instruction determines both `state` and the byte. -/
def Obligations.WireSelectionDropsNoBit : Prop :=
  ∀ (st st' : CodecState) (b b' : Byte), decodeWire st b = decodeWire st' b' → st = st' ∧ b = b'

/-- R61, R119: `InvalidChar` in exactly five cells, whatever the room; the encoder has no illegal input. -/
def Obligations.IllegalCellsAreFive : Prop :=
  (∀ (s : State) (b : Byte), ∃ t, exec (decodeWire s.inst.state b) s = .next t ∧
    (t.call.status = .invalidChar ↔
      (s.inst.state = .idle ∧ b = 0x03#8) ∨ (s.inst.state = .idle ∧ b = 0x10#8) ∨
      (s.inst.state = .idle ∧ b ≠ 0x02#8 ∧ b ≠ 0x03#8 ∧ b ≠ 0x10#8) ∨
      (s.inst.state = .started ∧ b = 0x02#8) ∨
      (s.inst.state = .escapeLatched ∧ b ≠ 0x02#8 ∧ b ≠ 0x03#8 ∧ b ≠ 0x10#8))) ∧
  (∀ (s : State) (input : List Byte) (capacity : Nat), ∃ t k st o,
    exec (.encode input capacity) s = .next t ∧ t.reply = .counts k o.length st o ∧
    st ≠ .invalidChar ∧ st ≠ .invalidChecksum)

/-! ### The decoder's micro-operations -/

/-- R82: DEC.IDLE.START. -/
def Obligations.DecIdleStartOpensTheFrame : Prop :=
  ∀ s : State, exec .decIdleStart s = .next { s with
    inst := { s.inst with state := .started, computedChecksum := folded s.inst 0x02#8 }
    call := { s.call with consumed := s.call.consumed + 1, status := .continue_ } }

/-- R83, R84, R85, R86, R93: the five illegal cells.  The micro-operation emits nothing and attempts no emit, does not write
`state`; a DECODE that meets the byte first returns `(1, 0, InvalidChar)` with the instance reset, whatever the room and
whatever follows.  That the byte is counted consumed is the spec's own decision D8 (R96), that the reset stands in the
driving loop its decision D9 (R97); log entry 20. -/
def Obligations.IllegalBytesDropTheFrame : Prop :=
  (∀ (s : State) (i : Instr) (b : Byte),
    (i = .decIdleEnd ∧ b = 0x03#8) ∨ (i = .decIdleEsc ∧ b = 0x10#8) ∨ i = .decIdleOther b ∨
      (i = .decStartedStart ∧ b = 0x02#8) ∨ i = .decEscapedOther b →
    exec i s = .next { s with
      inst := { s.inst with computedChecksum := folded s.inst b }
      call := { s.call with consumed := s.call.consumed + 1, status := .invalidChar } }) ∧
  (∀ (s : State) (b : Byte) (rest : List Byte) (capacity : Nat),
    (s.inst.state = .idle ∧ b ≠ 0x02#8) ∨ (s.inst.state = .started ∧ b = 0x02#8) ∨
      (s.inst.state = .escapeLatched ∧ b ≠ 0x02#8 ∧ b ≠ 0x03#8 ∧ b ≠ 0x10#8) →
    exec (.decode (b :: rest) capacity) s = .next { s with
      inst := { s.inst with state := .idle, computedChecksum := s.inst.config.seed }
      call := Call.none
      reply := .counts 1 0 .invalidChar [] })

/-- R87: DEC.STARTED.END: the trailer is next when the checksum is enabled, else the frame is done; END is covered.
That the byte which yields `Done` is counted consumed is the spec's own decision D8 (R96; log entry 20). -/
def Obligations.DecStartedEndClosesTheFrame : Prop :=
  ∀ s : State, exec .decStartedEnd s = .next (
    if s.inst.config.fn.isSome = true then
      { s with
        inst := { s.inst with state := .checksumByte0, computedChecksum := folded s.inst 0x03#8 }
        call := { s.call with consumed := s.call.consumed + 1, status := .continue_ } }
    else
      { s with
        inst := { s.inst with state := .idle }
        call := { s.call with consumed := s.call.consumed + 1, status := .done } })

/-- R88: DEC.STARTED.ESC, which needs no output room. -/
def Obligations.DecStartedEscLatches : Prop :=
  ∀ s : State, exec .decStartedEsc s = .next { s with
    inst := { s.inst with state := .escapeLatched, computedChecksum := folded s.inst 0x10#8 }
    call := { s.call with consumed := s.call.consumed + 1, status := .continue_ } }

/-- R89: DEC.STARTED.OTHER. -/
def Obligations.DecStartedOtherEmits : Prop :=
  ∀ (s : State) (v : Byte), exec (.decStartedOther v) s = .next (
    if s.call.out.length < s.call.capacity then
      { s with
        inst := { s.inst with computedChecksum := folded s.inst v }
        call := { s.call with
          consumed := s.call.consumed + 1, out := s.call.out ++ [v], status := .continue_ } }
    else { s with call := { s.call with status := .overflow } })

/-- R90, R91, R92: DEC.ESCAPED.START, DEC.ESCAPED.END, DEC.ESCAPED.ESC: the marker is emitted unchanged and the state is
`Started`; without room nothing happens. -/
def Obligations.DecEscapedMarkersEmit : Prop :=
  ∀ (s : State) (i : Instr) (b : Byte),
    (i = .decEscapedStart ∧ b = 0x02#8) ∨ (i = .decEscapedEnd ∧ b = 0x03#8) ∨ (i = .decEscapedEsc ∧ b = 0x10#8) →
    exec i s = .next (
      if s.call.out.length < s.call.capacity then
        { s with
          inst := { s.inst with state := .started, computedChecksum := folded s.inst b }
          call := { s.call with
            consumed := s.call.consumed + 1, out := s.call.out ++ [b], status := .continue_ } }
      else { s with call := { s.call with status := .overflow } })

/-- R94: DEC.CK0: the low byte lane; no checksum update.  That the high lane is kept and that the status is `Continue` are the
spec's own decisions D22 and D17 (log entry 21). -/
def Obligations.DecCk0StoresTheLowByte : Prop :=
  ∀ (s : State) (b : Byte), exec (.decCk0 b) s = .next { s with
    inst := { s.inst with
      state := .checksumByte1
      receivedChecksum := (s.inst.receivedChecksum &&& 0xFF00#16) ||| b.zeroExtend 16 }
    call := { s.call with consumed := s.call.consumed + 1, status := .continue_ } }

/-- R95: DEC.CK1: the high byte lane, then the comparison of all 16 bits; no checksum update.  That the byte is counted consumed
is the spec's own decision D8 (R96; log entry 20), that the low lane is kept its decision D22 (R13; log entry 21). -/
def Obligations.DecCk1StoresAndCompares : Prop :=
  ∀ (s : State) (b : Byte), exec (.decCk1 b) s = .next { s with
    inst := { s.inst with
      state := .idle
      receivedChecksum := (s.inst.receivedChecksum &&& 0x00FF#16) ||| (b.zeroExtend 16 <<< 8) }
    call := { s.call with
      consumed := s.call.consumed + 1
      status :=
        if (s.inst.receivedChecksum &&& 0x00FF#16) ||| (b.zeroExtend 16 <<< 8) = s.inst.computedChecksum then .done
        else .invalidChecksum } }

/-! ### The encoder's micro-operations -/

/-- R111: ENC.OPEN. -/
def Obligations.EncOpenWritesStart : Prop :=
  ∀ s : State, exec .encOpen s = .next (
    if s.call.out.length < s.call.capacity then
      { s with
        inst := { s.inst with state := .started, computedChecksum := folded s.inst 0x02#8 }
        call := { s.call with out := s.call.out ++ [0x02#8] } }
    else { s with call := { s.call with status := .overflow } })

/-- R112: ENC.ESC, which consumes no input byte. -/
def Obligations.EncEscWritesEscape : Prop :=
  ∀ s : State, exec .encEsc s = .next (
    if s.call.out.length < s.call.capacity then
      { s with
        inst := { s.inst with state := .escapeLatched, computedChecksum := folded s.inst 0x10#8 }
        call := { s.call with out := s.call.out ++ [0x10#8] } }
    else { s with call := { s.call with status := .overflow } })

/-- R113: ENC.MARK, after which the byte is consumed. -/
def Obligations.EncMarkWritesTheMarker : Prop :=
  ∀ (s : State) (v : Byte), exec (.encMark v) s = .next (
    if s.call.out.length < s.call.capacity then
      { s with
        inst := { s.inst with state := .started, computedChecksum := folded s.inst v }
        call := { s.call with consumed := s.call.consumed + 1, out := s.call.out ++ [v] } }
    else { s with call := { s.call with status := .overflow } })

/-- R114: ENC.LIT, after which the byte is consumed; `state` is not written. -/
def Obligations.EncLitWritesTheByte : Prop :=
  ∀ (s : State) (v : Byte), exec (.encLit v) s = .next (
    if s.call.out.length < s.call.capacity then
      { s with
        inst := { s.inst with computedChecksum := folded s.inst v }
        call := { s.call with consumed := s.call.consumed + 1, out := s.call.out ++ [v] } }
    else { s with call := { s.call with status := .overflow } })

/-- R115: ENC.CLOSE. -/
def Obligations.EncCloseWritesEnd : Prop :=
  ∀ s : State, exec .encClose s = .next (
    if s.call.out.length < s.call.capacity then
      if s.inst.config.fn.isSome = true then
        { s with
          inst := { s.inst with state := .checksumByte0, computedChecksum := folded s.inst 0x03#8 }
          call := { s.call with out := s.call.out ++ [0x03#8], status := .continue_ } }
      else
        { s with
          inst := { s.inst with state := .idle }
          call := { s.call with out := s.call.out ++ [0x03#8], status := .done } }
    else { s with call := { s.call with status := .overflow } })

/-- R116, R117, R36, R37: ENC.CK0 writes the low byte and ENC.CK1 the high byte, unescaped, the accumulator unchanged. -/
def Obligations.EncTrailerWritesLowThenHigh : Prop :=
  ∀ s : State,
    exec .encCk0 s = .next (
      if s.call.out.length < s.call.capacity then
        { s with
          inst := { s.inst with state := .checksumByte1 }
          call := { s.call with
            out := s.call.out ++ [BitVec.ofNat 8 (s.inst.computedChecksum.toNat % 256)] } }
      else { s with call := { s.call with status := .overflow } }) ∧
    exec .encCk1 s = .next (
      if s.call.out.length < s.call.capacity then
        { s with
          inst := { s.inst with state := .idle }
          call := { s.call with
            out := s.call.out ++ [BitVec.ofNat 8 (s.inst.computedChecksum.toNat / 256)]
            status := .done } }
      else { s with call := { s.call with status := .overflow } })

/-! ### All micro-operations -/

/-- R70, R74: a micro-operation that must emit and finds no room sets `Overflow` and has no other effect. -/
def Obligations.FullOutputHasNoEffect : Prop :=
  ∀ (i : Instr) (s : State), emits i = true → s.call.out.length = s.call.capacity →
    exec i s = .next { s with call := { s.call with status := .overflow } }

/-- R23, R30, R32, R39: a micro-operation never changes the input or the capacity, advances the cursor by at most one, and
appends at most one byte, never past the capacity. -/
def Obligations.MicroOpsAppendAndAdvanceByOne : Prop :=
  ∀ (i : Instr) (s : State), isMicroOperation i = true → ∃ t l, exec i s = .next t ∧
    t.call.input = s.call.input ∧ t.call.capacity = s.call.capacity ∧
    s.call.consumed ≤ t.call.consumed ∧ t.call.consumed ≤ s.call.consumed + 1 ∧
    t.call.out = s.call.out ++ l ∧ l.length ≤ 1 ∧
    (s.call.out.length ≤ s.call.capacity → t.call.out.length ≤ t.call.capacity) ∧
    t.reply = s.reply

/-! ### The control operations -/

/-- R140: INIT: a new instance from its config; `received_checksum` is some value of which nothing is said (log entry 2). -/
def Obligations.InitMakesAFreshInstance : Prop :=
  ∀ (config : CodecConfig) (s : State), ∃ r : Word, exec (.init config) s = .next { s with
    inst := { state := .idle, computedChecksum := config.seed, receivedChecksum := r, config := config }
    reply := .created { state := .idle, computedChecksum := config.seed, receivedChecksum := r, config := config }
    draws := s.draws + 1 }

/-- R141: RESET writes `state` and `computed_checksum` only and returns nothing. -/
def Obligations.ResetReturnsToIdle : Prop :=
  ∀ s : State, exec .reset s = .next { s with
    inst := { s.inst with state := .idle, computedChecksum := s.inst.config.seed }
    reply := .nothing }

/-- R142: IS_ERROR is true for `InvalidChar` and `InvalidChecksum` and reads no instance. -/
def Obligations.IsErrorNamesTheTwoErrors : Prop :=
  ∀ (st : Status) (s : State), exec (.isError st) s = .next { s with
    reply := .verdict (decide (st = .invalidChar ∨ st = .invalidChecksum)) }

/-! ### All instructions -/

/-- R143, which the spec marks as derived: no operation of the block fails, blocks or traps. -/
def Obligations.EveryInstructionCompletes : Prop :=
  ∀ (i : Instr) (s : State), ∃ t, exec i s = .next t

/-- R14, R21: `config` is set by INIT and never written again by any other instruction; no instruction takes back what the
caller has still to ask. -/
def Obligations.OnlyInitWritesConfig : Prop :=
  ∀ (i : Instr) (s : State), ∃ t, exec i s = .next t ∧ t.pending = s.pending ∧
    (t.inst.config = s.inst.config ∧ t.draws = s.draws ∨
      ∃ config, i = .init config ∧ t.inst.config = config)

/-- R13: `received_checksum` is written only by DEC.CK0, DEC.CK1, a DECODE, and INIT; no reset and no encode writes it. -/
def Obligations.OnlyTheDecoderWritesReceived : Prop :=
  ∀ (i : Instr) (s : State), ∃ t, exec i s = .next t ∧
    (t.inst.receivedChecksum = s.inst.receivedChecksum ∨
      (∃ b, i = .decCk0 b) ∨ (∃ b, i = .decCk1 b) ∨ (∃ input capacity, i = .decode input capacity) ∨
      ∃ config, i = .init config)

/-- R13: the old content of `received_checksum` is never read before both of its bytes are written: but for a call that
starts in `ChecksumByte1`, two DECODE calls that differ in it alone return the same and leave the same registers but it.
ENCODE neither reads nor writes it. -/
def Obligations.ReceivedIsReadOnlyWhenWritten : Prop :=
  (∀ (s : State) (w : Word) (input : List Byte) (capacity : Nat), s.inst.state ≠ .checksumByte1 →
    ∃ t t', exec (.decode input capacity) s = .next t ∧
      exec (.decode input capacity) { s with inst := { s.inst with receivedChecksum := w } } = .next t' ∧
      t.reply = t'.reply ∧ t.inst.state = t'.inst.state ∧
      t.inst.computedChecksum = t'.inst.computedChecksum ∧ t.inst.config = t'.inst.config) ∧
  (∀ (s : State) (w : Word) (input : List Byte) (capacity : Nat),
    ∃ t, exec (.encode input capacity) s = .next t ∧
      exec (.encode input capacity) { s with inst := { s.inst with receivedChecksum := w } } =
        .next { t with inst := { t.inst with receivedChecksum := w } })

/-- R16, R27: the result of an operation and the instance it leaves are a function of the instance and the arguments: nothing
else in the state influences them.  (INIT draws `received_checksum`; its `state`, accumulator and config agree too.) -/
def Obligations.ResultsDependOnTheInstanceOnly : Prop :=
  ∀ (i : Instr) (s s' : State), isMicroOperation i = false → s.inst = s'.inst →
    ∃ t t', exec i s = .next t ∧ exec i s' = .next t' ∧
      t.inst.state = t'.inst.state ∧ t.inst.computedChecksum = t'.inst.computedChecksum ∧
      t.inst.config = t'.inst.config ∧
      ((∀ config, i ≠ .init config) → t.inst = t'.inst ∧ t.reply = t'.reply)

/-! ### DECODE and ENCODE as runs of micro-operations -/

/-- R80, R81, R97, R186: DECODE is the run, from a fresh call, of the micro-operations the map of R59 selects byte by byte, at
most `n` of them; then the reset on a terminal status and the return.  The bound is R186, which the spec marks as derived; that a
call starts with `Continue` is its decision D15 (R75; log entry 21), that the byte of a terminal status is consumed D8 (R96) and
that the reset stands in the loop D9 (R97; log entry 20).  That a byte which overflows is not consumed is said by
DecStartedOtherEmits, DecEscapedMarkersEmit and FullOutputHasNoEffect. -/
def Obligations.DecodeIsItsMicroOperations : Prop :=
  ∀ (input : List Byte) (capacity k : Nat) (s : State), input.length ≤ k →
    (decodeTrace k { s with call := ⟨input, capacity, 0, [], .continue_⟩ }).length ≤ input.length ∧
    ∃ u, execAll (decodeTrace k { s with call := ⟨input, capacity, 0, [], .continue_⟩ })
        { s with call := ⟨input, capacity, 0, [], .continue_⟩ } = .next u ∧
      (u.call.status = .continue_ → u.call.consumed = input.length) ∧
      u.call.consumed ≤ input.length ∧ u.call.out.length ≤ capacity ∧
      exec (.decode input capacity) s = .next { u with
        inst :=
          if u.call.status = .done ∨ u.call.status = .invalidChar ∨ u.call.status = .invalidChecksum then
            { u.inst with state := .idle, computedChecksum := u.inst.config.seed }
          else u.inst
        call := Call.none
        reply := .counts u.call.consumed u.call.out.length u.call.status u.call.out }

/-- R110, R60, R120, R186: ENCODE's four phases are the run, from a fresh call, of the micro-operations the map of R60 selects,
at most `2n + 4` of them; then the reset at `Done` and the return.  That the trailer is written in the same call is the
spec's own decision D7 (log entry 13), that a call starts with `Continue` its decision D15 (R75; log entry 21); the bound is R186,
which the spec marks as derived. -/
def Obligations.EncodeIsItsMicroOperations : Prop :=
  ∀ (input : List Byte) (capacity k : Nat) (s : State), 2 * input.length + 4 ≤ k →
    (encodeTrace k { s with call := ⟨input, capacity, 0, [], .continue_⟩ }).length ≤ 2 * input.length + 4 ∧
    ∃ u, execAll (encodeTrace k { s with call := ⟨input, capacity, 0, [], .continue_⟩ })
        { s with call := ⟨input, capacity, 0, [], .continue_⟩ } = .next u ∧
      exec (.encode input capacity) s = .next { u with
        inst :=
          if u.call.status = .done then { u.inst with state := .idle, computedChecksum := u.inst.config.seed }
          else u.inst
        call := Call.none
        reply := .counts u.call.consumed u.call.out.length u.call.status u.call.out }

/-! ### Whole calls -/

/-- R76, R80, R96, R98: the counts of DECODE: at most `n` consumed, at most the capacity produced, never more produced than
consumed; `Continue` means that all input was consumed, a terminal status that at least one byte was (that its
byte counts is the spec's decision D8, log entry 20). -/
def Obligations.DecodeCountsAreBounded : Prop :=
  ∀ (input : List Byte) (capacity : Nat) (s : State), ∃ t k st o,
    exec (.decode input capacity) s = .next t ∧ t.reply = .counts k o.length st o ∧
    k ≤ input.length ∧ o.length ≤ capacity ∧ o.length ≤ k ∧
    (st = .continue_ → k = input.length) ∧ (st = .overflow → o.length = capacity) ∧
    (st = .done ∨ st = .invalidChar ∨ st = .invalidChecksum → 1 ≤ k)

/-- R76, R110: the counts of ENCODE: at most `n` consumed, at most the capacity produced; `Done` means that all input was
consumed, `Overflow` that all room was used. -/
def Obligations.EncodeCountsAreBounded : Prop :=
  ∀ (input : List Byte) (capacity : Nat) (s : State), ∃ t k st o,
    exec (.encode input capacity) s = .next t ∧ t.reply = .counts k o.length st o ∧
    k ≤ input.length ∧ o.length ≤ capacity ∧
    (st = .done → k = input.length) ∧ (st = .overflow → o.length = capacity)

/-- R98, which the spec derives from its decision D15 (log entry 21): DECODE of an empty input changes nothing and returns
`(0, 0, Continue)`, in any state. -/
def Obligations.DecodeOfNothing : Prop :=
  ∀ (capacity : Nat) (s : State), exec (.decode [] capacity) s = .next { s with
    call := Call.none
    reply := .counts 0 0 .continue_ [] }

/-- R18, R97, R120, R172: at the return of a DECODE or ENCODE with a terminal status the between-frames condition
holds (the reset stands in the driving loop: the spec's decision D9, log entry 20). -/
def Obligations.TerminalStatusResets : Prop :=
  ∀ (i : Instr) (input : List Byte) (capacity : Nat) (s : State),
    i = .decode input capacity ∨ i = .encode input capacity →
    ∃ t k st o, exec i s = .next t ∧ t.reply = .counts k o.length st o ∧ t.call = Call.none ∧
      (st = .done ∨ st = .invalidChar ∨ st = .invalidChecksum → BetweenFrames t.inst)

/-- R96, R101, R156: DECODE stops at the first terminal status: what follows the byte that gave it is not consumed and
changes nothing (that the byte itself is consumed is the spec's decision D8, log entry 20). -/
def Obligations.DecodeStopsAtItsTerminalByte : Prop :=
  ∀ (input rest : List Byte) (capacity : Nat) (s t : State) (k m : Nat) (st : Status) (o : List Byte),
    exec (.decode input capacity) s = .next t → t.reply = .counts k m st o →
    st = .done ∨ st = .invalidChar ∨ st = .invalidChecksum →
    exec (.decode (input ++ rest) capacity) s = .next t

/-- R102: chunk invariance of DECODE.  However the wire bytes are cut into pieces and whatever room each call offers, a caller
that resupplies what `Overflow` left and ends with another status has the same final status, total consumed, output and
instance as one call with enough room. -/
def Obligations.DecodeChunkInvariance : Prop :=
  ∀ (pieces : List (List Byte × Nat)) (capacity : Nat) (s : State),
    ((pieces.map Prod.fst).flatten).length ≤ capacity →
    (feedDecode pieces [] s).status ≠ .overflow →
    (feedDecode pieces [] s).status = (decodeOnce (pieces.map Prod.fst).flatten capacity s).status ∧
    (feedDecode pieces [] s).consumed = (decodeOnce (pieces.map Prod.fst).flatten capacity s).consumed ∧
    (feedDecode pieces [] s).out = (decodeOnce (pieces.map Prod.fst).flatten capacity s).out ∧
    (feedDecode pieces [] s).last.inst = (decodeOnce (pieces.map Prod.fst).flatten capacity s).last.inst

/-- R126, R52, R120: from the between-frames condition, ENCODE with room for the frame writes exactly `Frame(p)`, consumes all
of `p`, returns `Done` and leaves the instance as it was.  The spec marks R126 as derived; it rests on its decisions D6 (an
empty payload) and D7 (the trailer in the same call), log entries 19 and 13. -/
def Obligations.EncodeWritesTheFrame : Prop :=
  ∀ (p : List Byte) (capacity : Nat) (s : State), BetweenFrames s.inst →
    (frame s.inst.config p).length ≤ capacity →
    exec (.encode p capacity) s = .next { s with
      call := Call.none
      reply := .counts p.length (frame s.inst.config p).length .done (frame s.inst.config p) } ∧
    (frame s.inst.config p).length =
      2 + p.length + markerCount p + (if s.inst.config.fn.isSome = true then 2 else 0)

/-- R125: chunk invariance of ENCODE.  Whatever capacities the calls offer, once they sum to `len(Frame(p))` the concatenated
output is `Frame(p)`, all of `p` is consumed and the instance is reset; a call without room changes nothing.  The
spec marks R125 as derived. -/
def Obligations.EncodeChunkInvariance : Prop :=
  (∀ (capacities : List Nat) (p : List Byte) (s : State), BetweenFrames s.inst →
    (frame s.inst.config p).length ≤ capacities.sum →
    (drainEncode capacities p s).out = frame s.inst.config p ∧
    (drainEncode capacities p s).consumed = p.length ∧
    (drainEncode capacities p s).status = .done ∧
    (drainEncode capacities p s).last.inst = s.inst) ∧
  (∀ (p : List Byte) (s : State), encodeInContract s.inst.state p →
    exec (.encode p 0) s = .next { s with
      call := Call.none
      reply := .counts 0 0 .overflow [] })

/-- R103: round trip.  The payload is encoded through calls of any capacities, the wire bytes are decoded in any pieces with any
room; once the decoder's last status is not `Overflow`, it is `Done`, the output is the payload, every wire byte is consumed,
and the receiver is between frames again.  For every update function, sender and receiver configured alike.  The spec marks
R103 as derived; that the byte which yields `Done` is consumed is its decision D8 (R96; log entry 20). -/
def Obligations.RoundTrip : Prop :=
  ∀ (p : List Byte) (capacities : List Nat) (pieces : List (List Byte × Nat)) (tx rx : State),
    BetweenFrames tx.inst → BetweenFrames rx.inst → tx.inst.config = rx.inst.config →
    (frame tx.inst.config p).length ≤ capacities.sum →
    (pieces.map Prod.fst).flatten = (drainEncode capacities p tx).out →
    (feedDecode pieces [] rx).status ≠ .overflow →
    (feedDecode pieces [] rx).status = .done ∧
    (feedDecode pieces [] rx).out = p ∧
    (feedDecode pieces [] rx).consumed = (frame tx.inst.config p).length ∧
    BetweenFrames (feedDecode pieces [] rx).last.inst

/-- R55, R99, R127: encoder and decoder fold the same bytes in the same order, START through END with the escapes, from the
seed: with the checksum enabled both stand in `ChecksumByte0` with that fold once END is past.  The encoder's
clause is one enabled ENCODE call that overflows at ENC.CK0 (R110, R116): that it goes on to the trailer, and so answers
`Overflow` and not `Continue`, is the spec's own decision D7 (log entry 13). -/
def Obligations.ChecksumCoversStartToEnd : Prop :=
  ∀ (f : ChecksumFn) (p : List Byte) (s : State), BetweenFrames s.inst → s.inst.config.fn = some f →
    exec (.encode p (covered p).length) s = .next { s with
      inst := { s.inst with
        state := .checksumByte0, computedChecksum := foldChecksum f s.inst.config.seed (covered p) }
      call := Call.none
      reply := .counts p.length (covered p).length .overflow (covered p) } ∧
    exec (.decode (covered p) p.length) s = .next { s with
      inst := { s.inst with
        state := .checksumByte0, computedChecksum := foldChecksum f s.inst.config.seed (covered p) }
      call := Call.none
      reply := .counts (covered p).length p.length .continue_ p }

/-- R95, R101, R152, R158: with the checksum enabled, a frame with trailer `lo`, `hi` is `Done` exactly when the word they form
is the fold over START through END, else `InvalidChecksum`; either way the payload has been produced, the instance is
reset, and bytes after the trailer are left.  That the last trailer byte is counted consumed is the spec's own decision D8 (R96;
log entry 20). -/
def Obligations.TrailerDecidesTheFrame : Prop :=
  ∀ (f : ChecksumFn) (p rest : List Byte) (lo hi : Byte) (capacity : Nat) (s : State),
    BetweenFrames s.inst → s.inst.config.fn = some f → p.length ≤ capacity →
    exec (.decode (covered p ++ lo :: hi :: rest) capacity) s = .next { s with
      inst := { s.inst with receivedChecksum := hi ++ lo }
      call := Call.none
      reply := .counts ((covered p).length + 2) p.length
        (if hi ++ lo = foldChecksum f s.inst.config.seed (covered p) then .done else .invalidChecksum) p }

/-- R119, R121: ENCODE returns `Done`, `Overflow` or `Continue`, in contract never `Continue` (R121, which the spec derives from
its decision D7, log entry 13). -/
def Obligations.EncodeStatusesInContract : Prop :=
  ∀ (p : List Byte) (capacity : Nat) (s : State), ∃ t k st o,
    exec (.encode p capacity) s = .next t ∧ t.reply = .counts k o.length st o ∧
    (st = .done ∨ st = .overflow ∨ st = .continue_) ∧
    (encodeInContract s.inst.state p → st ≠ .continue_) ∧
    (st = .done → BetweenFrames t.inst ∧ k = p.length)

/-- R118: an in-contract ENCODE that returns `Overflow` leaves a `state` and a remainder that agree with a row of the table of
R118, so the caller can resume. -/
def Obligations.OverflowLeavesAResumableEncoder : Prop :=
  ∀ (p : List Byte) (capacity : Nat) (s t : State) (k m : Nat) (o : List Byte),
    encodeInContract s.inst.state p → exec (.encode p capacity) s = .next t →
    t.reply = .counts k m .overflow o → encodeInContract t.inst.state (p.drop k)

/-- R124 (b): `EscapeLatched` and empty input: no phase does anything and the call returns `(0, 0, Continue)`.  That the
model takes this literal result is its choice (log entry 12). -/
def Obligations.EncodeOfNothingWhileLatched : Prop :=
  ∀ (capacity : Nat) (s : State), s.inst.state = .escapeLatched →
    exec (.encode [] capacity) s = .next { s with
      call := Call.none
      reply := .counts 0 0 .continue_ [] }

/-- R128, R126: `2 * len(p) + 4` bytes of room always suffice for one ENCODE call to finish a frame.  The spec marks
R128 as derived; the one call rests on its decision D7 (log entry 13). -/
def Obligations.TwiceTheLengthPlusFourSuffices : Prop :=
  ∀ (p : List Byte) (s : State), BetweenFrames s.inst →
    exec (.encode p (2 * p.length + 4)) s = .next { s with
      call := Call.none
      reply := .counts p.length (frame s.inst.config p).length .done (frame s.inst.config p) } ∧
    (frame s.inst.config p).length ≤ 2 * p.length + 4

/-! ### Steps -/

/-- R42, R45, R58 to R60: a step takes the first thing the caller has asked and executes the instruction it selects: an operation
as it stands; a beat in a call that holds the offered byte and room for one byte or none, returned at once (log entry 7). -/
def Obligations.StepRunsTheDecodedInstruction : Prop :=
  ∀ (s : State) (rest : List Offer) (i : Instr),
    (∀ code args, s.pending = .operation code args :: rest → decodeOperation code args = .ok i →
      step s = exec i { s with pending := rest }) ∧
    (∀ b room, s.pending = .wire b room :: rest → decodeWire s.inst.state b = i →
      ∃ t, exec i { s with pending := rest, call := ⟨[b], if room = true then 1 else 0, 0, [], .continue_⟩ } = .next t ∧
        step s = .next t.returnCall) ∧
    (∀ v room, s.pending = .payload v room :: rest → decodePayload s.inst.state (some v) = .ok i →
      ∃ t, exec i { s with pending := rest, call := ⟨[v], if room = true then 1 else 0, 0, [], .continue_⟩ } = .next t ∧
        step s = .next t.returnCall) ∧
    (∀ room, s.pending = .sliceEnd room :: rest → decodePayload s.inst.state none = .ok i →
      ∃ t, exec i { s with pending := rest, call := ⟨[], if room = true then 1 else 0, 0, [], .continue_⟩ } = .next t ∧
        step s = .next t.returnCall)

/-- R42, R187: when the caller asks nothing a step changes nothing (log entry 6). -/
def Obligations.StepWithoutARequest : Prop :=
  ∀ s : State, s.pending = [] → step s = .next s

/-- R58, R57, R142, R144: a code that names no operation, or for IS_ERROR no status, is rejected by name (log entry 9). -/
def Obligations.UnknownCodesAreRejected : Prop :=
  (∀ (s : State) (rest : List Offer) (code : Byte) (args : Args),
    s.pending = .operation code args :: rest → 5 ≤ code.toNat → step s = .refused (.unknownOperation code)) ∧
  (∀ (s : State) (rest : List Offer) (args : Args),
    s.pending = .operation 2#8 args :: rest → 5 ≤ args.status.toNat → step s = .refused (.unknownStatus args.status))

/-- R45, R80: a decoder beat is a DECODE of the one byte it offers, with room for one byte or none. -/
def Obligations.WireBeatIsOneByteDecode : Prop :=
  ∀ (s : State) (b : Byte) (room : Bool) (rest : List Offer), s.pending = .wire b room :: rest →
    step s = exec (.decode [b] (if room = true then 1 else 0)) { s with pending := rest }

/-- R11, R15, R18, R19, R172: every step keeps the invariant: no call is open, `Idle` stands with the accumulator at the seed,
and the two checksum states only with the checksum enabled. -/
def Obligations.StepKeepsTheInvariant : Prop :=
  ∀ s t : State, Inv s → step s = .next t → Inv t

/-- R170, R172: the reset state meets the invariant. -/
def Obligations.ResetMeetsTheInvariant : Prop := Inv State.reset

/-- R170, R171, R172: after reset the block is between frames with no call in progress and nothing asked.  The config and
`received_checksum` are the model's choice (log entries 3, 4) and are not stated. -/
def Obligations.ResetIsBetweenFrames : Prop :=
  BetweenFrames State.reset.inst ∧ State.reset.call = Call.none ∧ State.reset.reply = .nothing ∧
    State.reset.pending = []

/-- R8: every total function of an accumulator and a byte is the function of some table, so the model's representation of
`checksum_update_fn` leaves none out (log entry 1). -/
def Obligations.EveryFunctionIsATable : Prop :=
  ∀ F : Word → Byte → Word, ∃ f : ChecksumFn, ∀ (acc : Word) (b : Byte), f.apply acc b = F acc b
end

