-- ==== Sys2Proof/Laws/Classes.lean ====
section
/-!
SUPPORT. Byte classes, codes and byte lanes: what each small definition says, once.
-/

namespace Sys2Proof

theorem isMarker_iff (b : Byte) : isMarker b = true ↔ b = 0x02#8 ∨ b = 0x03#8 ∨ b = 0x10#8 := by
  simp [isMarker, or_assoc]

theorem isMarker_false_iff (b : Byte) : isMarker b = false ↔ b ≠ 0x02#8 ∧ b ≠ 0x03#8 ∧ b ≠ 0x10#8 := by
  simp [isMarker, and_assoc]

@[simp] theorem classify_start : classify 0x02#8 = .start := rfl

@[simp] theorem classify_stop : classify 0x03#8 = .stop := rfl

@[simp] theorem classify_escape : classify 0x10#8 = .escape := rfl

/-- A byte is one of the three markers, or of class `OTHER` (R51). -/
theorem classify_cases (b : Byte) :
    (b = 0x02#8 ∧ classify b = .start) ∨ (b = 0x03#8 ∧ classify b = .stop) ∨ (b = 0x10#8 ∧ classify b = .escape) ∨
      (b ≠ 0x02#8 ∧ b ≠ 0x03#8 ∧ b ≠ 0x10#8 ∧ classify b = .other) := by
  by_cases h2 : b = 0x02#8
  · subst h2; simp
  · by_cases h3 : b = 0x03#8
    · subst h3; simp
    · by_cases h16 : b = 0x10#8
      · subst h16; simp
      · simp [classify, h2, h3, h16]

/-- Class `OTHER` is exactly the bytes that are no marker (R51, R73). -/
theorem classify_other_iff (b : Byte) : classify b = .other ↔ isMarker b = false := by
  rw [isMarker_false_iff]
  rcases classify_cases b with ⟨h, c⟩ | ⟨h, c⟩ | ⟨h, c⟩ | ⟨h2, h3, h16, c⟩
  · simp [h]
  · simp [h]
  · simp [h]
  · simp [c, h2, h3, h16]

@[simp] theorem statusOfCode_statusCode (st : Status) : statusOfCode (statusCode st) = some st := by
  cases st <;> rfl

@[simp] theorem stateOfCode_stateCode (st : CodecState) : stateOfCode (stateCode st) = some st := by
  cases st <;> rfl

@[simp] theorem lowByte_append (hi lo : Byte) : lowByte (hi ++ lo) = lo := by
  apply BitVec.eq_of_getLsbD_eq
  intro i h
  simp only [lowByte, BitVec.getLsbD_extractLsb', BitVec.getLsbD_append]
  simp [h]

@[simp] theorem highByte_append (hi lo : Byte) : highByte (hi ++ lo) = hi := by
  apply BitVec.eq_of_getLsbD_eq
  intro i h
  simp only [highByte, BitVec.getLsbD_extractLsb', BitVec.getLsbD_append]
  simp [h]

/-- A word is its two lanes, high byte first (R9, R36). -/
@[simp] theorem highByte_append_lowByte (w : Word) : highByte w ++ lowByte w = w := by
  apply BitVec.eq_of_getLsbD_eq
  intro i h
  simp only [lowByte, highByte, BitVec.getLsbD_extractLsb', BitVec.getLsbD_append]
  by_cases hi : i < 8
  · simp [hi]
  · have h8 : i - 8 < 8 := by omega
    have hs : 8 + (i - 8) = i := by omega
    simp [hi, h8, hs]

@[simp] theorem lowByte_withLowByte (w : Word) (b : Byte) : lowByte (withLowByte w b) = b := lowByte_append _ _

@[simp] theorem highByte_withLowByte (w : Word) (b : Byte) : highByte (withLowByte w b) = highByte w :=
  highByte_append _ _

@[simp] theorem highByte_withHighByte (w : Word) (b : Byte) : highByte (withHighByte w b) = b := highByte_append _ _

@[simp] theorem lowByte_withHighByte (w : Word) (b : Byte) : lowByte (withHighByte w b) = lowByte w :=
  lowByte_append _ _

/-- After both lanes have been written nothing of the old word is left (R56, D22). -/
theorem withHighByte_withLowByte (w : Word) (lo hi : Byte) : withHighByte (withLowByte w lo) hi = hi ++ lo := by
  simp [withHighByte]

end Sys2Proof
end

