-- ==== Sys2Proof/Laws/State.lean ====
section
/-!
SUPPORT. One lemma per field per update of the state, each true by unfolding, so that no later proof unfolds an update.
-/

namespace Sys2Proof.Machine

/-! ### `State.setState` -/

@[simp] theorem State.setState_inst_state (s : State) (st : CodecState) :
    (s.setState st).inst.state = st := rfl

@[simp] theorem State.setState_inst_computedChecksum (s : State) (st : CodecState) :
    (s.setState st).inst.computedChecksum = s.inst.computedChecksum := rfl

@[simp] theorem State.setState_inst_receivedChecksum (s : State) (st : CodecState) :
    (s.setState st).inst.receivedChecksum = s.inst.receivedChecksum := rfl

@[simp] theorem State.setState_inst_config (s : State) (st : CodecState) :
    (s.setState st).inst.config = s.inst.config := rfl

@[simp] theorem State.setState_call (s : State) (st : CodecState) :
    (s.setState st).call = s.call := rfl

@[simp] theorem State.setState_reply (s : State) (st : CodecState) :
    (s.setState st).reply = s.reply := rfl

@[simp] theorem State.setState_pending (s : State) (st : CodecState) :
    (s.setState st).pending = s.pending := rfl

@[simp] theorem State.setState_draws (s : State) (st : CodecState) :
    (s.setState st).draws = s.draws := rfl

/-! ### `State.setComputed` -/

@[simp] theorem State.setComputed_inst_state (s : State) (w : Word) :
    (s.setComputed w).inst.state = s.inst.state := rfl

@[simp] theorem State.setComputed_inst_computedChecksum (s : State) (w : Word) :
    (s.setComputed w).inst.computedChecksum = w := rfl

@[simp] theorem State.setComputed_inst_receivedChecksum (s : State) (w : Word) :
    (s.setComputed w).inst.receivedChecksum = s.inst.receivedChecksum := rfl

@[simp] theorem State.setComputed_inst_config (s : State) (w : Word) :
    (s.setComputed w).inst.config = s.inst.config := rfl

@[simp] theorem State.setComputed_call (s : State) (w : Word) :
    (s.setComputed w).call = s.call := rfl

@[simp] theorem State.setComputed_reply (s : State) (w : Word) :
    (s.setComputed w).reply = s.reply := rfl

@[simp] theorem State.setComputed_pending (s : State) (w : Word) :
    (s.setComputed w).pending = s.pending := rfl

@[simp] theorem State.setComputed_draws (s : State) (w : Word) :
    (s.setComputed w).draws = s.draws := rfl

/-! ### `State.setReceived` -/

@[simp] theorem State.setReceived_inst_state (s : State) (w : Word) :
    (s.setReceived w).inst.state = s.inst.state := rfl

@[simp] theorem State.setReceived_inst_computedChecksum (s : State) (w : Word) :
    (s.setReceived w).inst.computedChecksum = s.inst.computedChecksum := rfl

@[simp] theorem State.setReceived_inst_receivedChecksum (s : State) (w : Word) :
    (s.setReceived w).inst.receivedChecksum = w := rfl

@[simp] theorem State.setReceived_inst_config (s : State) (w : Word) :
    (s.setReceived w).inst.config = s.inst.config := rfl

@[simp] theorem State.setReceived_call (s : State) (w : Word) :
    (s.setReceived w).call = s.call := rfl

@[simp] theorem State.setReceived_reply (s : State) (w : Word) :
    (s.setReceived w).reply = s.reply := rfl

@[simp] theorem State.setReceived_pending (s : State) (w : Word) :
    (s.setReceived w).pending = s.pending := rfl

@[simp] theorem State.setReceived_draws (s : State) (w : Word) :
    (s.setReceived w).draws = s.draws := rfl

/-! ### `State.ckUpdate` -/

@[simp] theorem State.ckUpdate_inst_state (s : State) (b : Byte) :
    (s.ckUpdate b).inst.state = s.inst.state := rfl

@[simp] theorem State.ckUpdate_inst_computedChecksum (s : State) (b : Byte) :
    (s.ckUpdate b).inst.computedChecksum = ckStep s.inst.config s.inst.computedChecksum b := rfl

@[simp] theorem State.ckUpdate_inst_receivedChecksum (s : State) (b : Byte) :
    (s.ckUpdate b).inst.receivedChecksum = s.inst.receivedChecksum := rfl

@[simp] theorem State.ckUpdate_inst_config (s : State) (b : Byte) :
    (s.ckUpdate b).inst.config = s.inst.config := rfl

@[simp] theorem State.ckUpdate_call (s : State) (b : Byte) :
    (s.ckUpdate b).call = s.call := rfl

@[simp] theorem State.ckUpdate_reply (s : State) (b : Byte) :
    (s.ckUpdate b).reply = s.reply := rfl

@[simp] theorem State.ckUpdate_pending (s : State) (b : Byte) :
    (s.ckUpdate b).pending = s.pending := rfl

@[simp] theorem State.ckUpdate_draws (s : State) (b : Byte) :
    (s.ckUpdate b).draws = s.draws := rfl

/-! ### `State.resetInst` -/

@[simp] theorem State.resetInst_inst_state (s : State) :
    (s.resetInst).inst.state = .idle := rfl

@[simp] theorem State.resetInst_inst_computedChecksum (s : State) :
    (s.resetInst).inst.computedChecksum = s.inst.config.seed := rfl

@[simp] theorem State.resetInst_inst_receivedChecksum (s : State) :
    (s.resetInst).inst.receivedChecksum = s.inst.receivedChecksum := rfl

@[simp] theorem State.resetInst_inst_config (s : State) :
    (s.resetInst).inst.config = s.inst.config := rfl

@[simp] theorem State.resetInst_call (s : State) :
    (s.resetInst).call = s.call := rfl

@[simp] theorem State.resetInst_reply (s : State) :
    (s.resetInst).reply = s.reply := rfl

@[simp] theorem State.resetInst_pending (s : State) :
    (s.resetInst).pending = s.pending := rfl

@[simp] theorem State.resetInst_draws (s : State) :
    (s.resetInst).draws = s.draws := rfl

/-! ### `State.setStatus` -/

@[simp] theorem State.setStatus_inst (s : State) (st : Status) :
    (s.setStatus st).inst = s.inst := rfl

@[simp] theorem State.setStatus_call_input (s : State) (st : Status) :
    (s.setStatus st).call.input = s.call.input := rfl

@[simp] theorem State.setStatus_call_capacity (s : State) (st : Status) :
    (s.setStatus st).call.capacity = s.call.capacity := rfl

@[simp] theorem State.setStatus_call_consumed (s : State) (st : Status) :
    (s.setStatus st).call.consumed = s.call.consumed := rfl

@[simp] theorem State.setStatus_call_out (s : State) (st : Status) :
    (s.setStatus st).call.out = s.call.out := rfl

@[simp] theorem State.setStatus_call_status (s : State) (st : Status) :
    (s.setStatus st).call.status = st := rfl

@[simp] theorem State.setStatus_reply (s : State) (st : Status) :
    (s.setStatus st).reply = s.reply := rfl

@[simp] theorem State.setStatus_pending (s : State) (st : Status) :
    (s.setStatus st).pending = s.pending := rfl

@[simp] theorem State.setStatus_draws (s : State) (st : Status) :
    (s.setStatus st).draws = s.draws := rfl

/-! ### `State.consume` -/

@[simp] theorem State.consume_inst (s : State) :
    (s.consume).inst = s.inst := rfl

@[simp] theorem State.consume_call_input (s : State) :
    (s.consume).call.input = s.call.input := rfl

@[simp] theorem State.consume_call_capacity (s : State) :
    (s.consume).call.capacity = s.call.capacity := rfl

@[simp] theorem State.consume_call_consumed (s : State) :
    (s.consume).call.consumed = s.call.consumed + 1 := rfl

@[simp] theorem State.consume_call_out (s : State) :
    (s.consume).call.out = s.call.out := rfl

@[simp] theorem State.consume_call_status (s : State) :
    (s.consume).call.status = s.call.status := rfl

@[simp] theorem State.consume_reply (s : State) :
    (s.consume).reply = s.reply := rfl

@[simp] theorem State.consume_pending (s : State) :
    (s.consume).pending = s.pending := rfl

@[simp] theorem State.consume_draws (s : State) :
    (s.consume).draws = s.draws := rfl

/-! ### `State.append` -/

@[simp] theorem State.append_inst (s : State) (b : Byte) :
    (s.append b).inst = s.inst := rfl

@[simp] theorem State.append_call_input (s : State) (b : Byte) :
    (s.append b).call.input = s.call.input := rfl

@[simp] theorem State.append_call_capacity (s : State) (b : Byte) :
    (s.append b).call.capacity = s.call.capacity := rfl

@[simp] theorem State.append_call_consumed (s : State) (b : Byte) :
    (s.append b).call.consumed = s.call.consumed := rfl

@[simp] theorem State.append_call_out (s : State) (b : Byte) :
    (s.append b).call.out = s.call.out ++ [b] := rfl

@[simp] theorem State.append_call_status (s : State) (b : Byte) :
    (s.append b).call.status = s.call.status := rfl

@[simp] theorem State.append_reply (s : State) (b : Byte) :
    (s.append b).reply = s.reply := rfl

@[simp] theorem State.append_pending (s : State) (b : Byte) :
    (s.append b).pending = s.pending := rfl

@[simp] theorem State.append_draws (s : State) (b : Byte) :
    (s.append b).draws = s.draws := rfl

/-! ### `State.openCall` -/

@[simp] theorem State.openCall_inst (s : State) (input : List Byte) (capacity : Nat) :
    (s.openCall input capacity).inst = s.inst := rfl

@[simp] theorem State.openCall_call_input (s : State) (input : List Byte) (capacity : Nat) :
    (s.openCall input capacity).call.input = input := rfl

@[simp] theorem State.openCall_call_capacity (s : State) (input : List Byte) (capacity : Nat) :
    (s.openCall input capacity).call.capacity = capacity := rfl

@[simp] theorem State.openCall_call_consumed (s : State) (input : List Byte) (capacity : Nat) :
    (s.openCall input capacity).call.consumed = 0 := rfl

@[simp] theorem State.openCall_call_out (s : State) (input : List Byte) (capacity : Nat) :
    (s.openCall input capacity).call.out = [] := rfl

@[simp] theorem State.openCall_call_status (s : State) (input : List Byte) (capacity : Nat) :
    (s.openCall input capacity).call.status = .continue_ := rfl

@[simp] theorem State.openCall_reply (s : State) (input : List Byte) (capacity : Nat) :
    (s.openCall input capacity).reply = s.reply := rfl

@[simp] theorem State.openCall_pending (s : State) (input : List Byte) (capacity : Nat) :
    (s.openCall input capacity).pending = s.pending := rfl

@[simp] theorem State.openCall_draws (s : State) (input : List Byte) (capacity : Nat) :
    (s.openCall input capacity).draws = s.draws := rfl

/-! ### `State.setReply` -/

@[simp] theorem State.setReply_inst (s : State) (r : Reply) :
    (s.setReply r).inst = s.inst := rfl

@[simp] theorem State.setReply_call (s : State) (r : Reply) :
    (s.setReply r).call = s.call := rfl

@[simp] theorem State.setReply_reply (s : State) (r : Reply) :
    (s.setReply r).reply = r := rfl

@[simp] theorem State.setReply_pending (s : State) (r : Reply) :
    (s.setReply r).pending = s.pending := rfl

@[simp] theorem State.setReply_draws (s : State) (r : Reply) :
    (s.setReply r).draws = s.draws := rfl

/-! ### The start of a call -/

@[simp] theorem Call.fresh_input (input : List Byte) (capacity : Nat) : (Call.fresh input capacity).input = input := rfl

@[simp] theorem Call.fresh_capacity (input : List Byte) (capacity : Nat) :
    (Call.fresh input capacity).capacity = capacity := rfl

@[simp] theorem Call.fresh_consumed (input : List Byte) (capacity : Nat) : (Call.fresh input capacity).consumed = 0 := rfl

@[simp] theorem Call.fresh_out (input : List Byte) (capacity : Nat) : (Call.fresh input capacity).out = [] := rfl

@[simp] theorem Call.fresh_status (input : List Byte) (capacity : Nat) :
    (Call.fresh input capacity).status = .continue_ := rfl

/-! ### The return of a call -/

/-- The instance after the return: reset on a terminal status, else as the call left it (R18). -/
theorem State.returnCall_inst (s : State) :
    s.returnCall.inst =
      if statusIsTerminal s.call.status = true then
        { s.inst with state := .idle, computedChecksum := s.inst.config.seed }
      else s.inst := by
  unfold State.returnCall State.resetIfTerminal
  split <;> rfl

@[simp] theorem State.returnCall_call (s : State) : s.returnCall.call = Call.none := rfl

@[simp] theorem State.returnCall_reply (s : State) :
    s.returnCall.reply = .counts s.call.consumed s.call.out.length s.call.status s.call.out := rfl

@[simp] theorem State.returnCall_pending (s : State) : s.returnCall.pending = s.pending := by
  unfold State.returnCall State.resetIfTerminal
  split <;> rfl

@[simp] theorem State.returnCall_draws (s : State) : s.returnCall.draws = s.draws := by
  unfold State.returnCall State.resetIfTerminal
  split <;> rfl

@[simp] theorem State.returnCall_config (s : State) : s.returnCall.inst.config = s.inst.config := by
  rw [State.returnCall_inst]
  split <;> rfl

@[simp] theorem State.returnCall_received (s : State) :
    s.returnCall.inst.receivedChecksum = s.inst.receivedChecksum := by
  rw [State.returnCall_inst]
  split <;> rfl

end Sys2Proof.Machine
end

