-- ==== Sys2Proof/Laws/Ops.lean ====
section
/-!
SUPPORT. One lemma per shared operation that says what it can do; later proofs cite these and unfold no operation.
-/

namespace Sys2Proof

/-- A table made from a function lists the function's value at every pair it lists (R8; log entry 1). -/
theorem ChecksumFn.find_mem (F : Word → Byte → Word) (l : List (Word × Byte)) (a : Word) (b : Byte)
    (h : (a, b) ∈ l) : ChecksumFn.find (l.map fun x => (x.1, x.2, F x.1 x.2)) a b = some (F a b) := by
  induction l with
  | nil => simp at h
  | cons x l ih =>
    obtain ⟨u, v⟩ := x
    simp only [List.map_cons, ChecksumFn.find]
    by_cases hx : u = a ∧ v = b
    · simp [hx]
    · simp only [hx, if_false]
      apply ih
      rcases List.mem_cons.1 h with h | h
      · exact absurd ⟨(congrArg Prod.fst h).symm, (congrArg Prod.snd h).symm⟩ hx
      · exact h

end Sys2Proof

namespace Sys2Proof.Machine

@[simp] theorem ckStep_absent (seed acc : Word) (b : Byte) : ckStep { seed := seed, fn := none } acc b = acc := rfl

theorem ckStep_of_none {config : CodecConfig} (h : config.fn = none) (acc : Word) (b : Byte) :
    ckStep config acc b = acc := by
  simp [ckStep, h]

theorem ckStep_of_some {config : CodecConfig} {f : ChecksumFn} (h : config.fn = some f) (acc : Word) (b : Byte) :
    ckStep config acc b = f.apply acc b := by
  simp [ckStep, h]

theorem State.hasRoom_iff (s : State) : s.hasRoom = true ↔ s.call.out.length < s.call.capacity := by
  unfold State.hasRoom Call.produced
  exact decide_eq_true_iff

/-- TryEmit with room: the byte is appended and the micro-operation goes on (R70). -/
theorem State.emitThen_room {s : State} (h : s.call.out.length < s.call.capacity) (b : Byte) (f : State → State) :
    s.emitThen b f = f (s.append b) := by
  simp [State.emitThen, (State.hasRoom_iff s).2 h]

/-- TryEmit without room: the status is `Overflow` and nothing else has happened (R70, R74). -/
theorem State.emitThen_full {s : State} (h : ¬ s.call.out.length < s.call.capacity) (b : Byte) (f : State → State) :
    s.emitThen b f = s.setStatus .overflow := by
  simp [State.emitThen, State.hasRoom, Call.produced, h]

theorem State.unlessOverflow_overflow {s : State} (h : s.call.status = .overflow) (f : State → State) :
    s.unlessOverflow f = s := by
  simp [State.unlessOverflow, h]

theorem State.unlessOverflow_of_ne {s : State} (h : s.call.status ≠ .overflow) (f : State → State) :
    s.unlessOverflow f = f s := by
  simp [State.unlessOverflow, h]

theorem State.whenState_eq {s : State} {st : CodecState} (h : s.inst.state = st) (f : State → State) :
    s.whenState st f = f s := by
  simp [State.whenState, h]

theorem State.whenState_ne {s : State} {st : CodecState} (h : s.inst.state ≠ st) (f : State → State) :
    s.whenState st f = s := by
  simp [State.whenState, h]

/-- The input byte at the cursor after one more byte is consumed. -/
@[simp] theorem State.inputByte_consume (s : State) :
    s.consume.inputByte = s.call.input[s.call.consumed + 1]? := rfl

/-- A call returns, and the next state is given field by field (R18, R80, R158). -/
theorem State.returnCall_eq (s : State) :
    s.returnCall =
      { inst := if statusIsTerminal s.call.status = true then
            { s.inst with state := .idle, computedChecksum := s.inst.config.seed } else s.inst
        call := Call.none
        reply := .counts s.call.consumed s.call.out.length s.call.status s.call.out
        pending := s.pending
        draws := s.draws } := by
  unfold State.returnCall State.resetIfTerminal
  split <;> rfl

end Sys2Proof.Machine
end

