-- ==== Sys2Proof/Laws/Decoder.lean ====
section
/-!
SUPPORT. The decoder's laws.  `decEffect` is what one byte does to the instance and to the output, a function of the instance,
the byte and whether there is room (R81); `decRun` is the driving loop over a list (R80).  `decByte_eq` and `decodeCall_eq` say that
the machine is these, so that claims about whole calls are inductions over the list of input bytes.
-/

namespace Sys2Proof.Machine

/-- What DecByte does: the instance after it, the bytes it emits, its status. -/
structure ByteEffect where
  inst : Instance
  out : List Byte
  status : Status
deriving DecidableEq, Repr

/-- The instance with the raw byte folded in and `state` set (R77, R99). -/
def Instance.fold (i : Instance) (b : Byte) (st : CodecState) : Instance :=
  { i with state := st, computedChecksum := ckStep i.config i.computedChecksum b }

/-- A byte that emits its own value and leaves the state `Started`, or finds no room (R89, R90, R91, R92). -/
def emitEffect (i : Instance) (b : Byte) (room : Bool) : ByteEffect :=
  if room then ⟨i.fold b .started, [b], .continue_⟩ else ⟨i, [], .overflow⟩

/-- DecByte as a function of (`inst`, `b`, room) (R81, R59). -/
def decEffect (i : Instance) (b : Byte) (room : Bool) : ByteEffect :=
  match i.state with
  | .idle =>
    if b = 0x02#8 then ⟨i.fold b .started, [], .continue_⟩ else ⟨i.fold b .idle, [], .invalidChar⟩
  | .started =>
    if b = 0x02#8 then ⟨i.fold b .started, [], .invalidChar⟩
    else if b = 0x03#8 then
      if i.config.fn.isSome then ⟨i.fold b .checksumByte0, [], .continue_⟩ else ⟨i.fold b .idle, [], .done⟩
    else if b = 0x10#8 then ⟨i.fold b .escapeLatched, [], .continue_⟩
    else emitEffect i b room
  | .escapeLatched =>
    if b = 0x02#8 ∨ b = 0x03#8 ∨ b = 0x10#8 then emitEffect i b room
    else ⟨i.fold b .escapeLatched, [], .invalidChar⟩
  | .checksumByte0 =>
    ⟨{ i with state := .checksumByte1, receivedChecksum := withLowByte i.receivedChecksum b }, [], .continue_⟩
  | .checksumByte1 =>
    ⟨{ i with state := .idle, receivedChecksum := withHighByte i.receivedChecksum b }, [],
      if withHighByte i.receivedChecksum b = i.computedChecksum then .done else .invalidChecksum⟩

/-- The state after an effect: the byte is consumed unless it overflowed (R96). -/
def State.afterEffect (s : State) (e : ByteEffect) : State :=
  { s with
    inst := e.inst
    call := { s.call with
      consumed := s.call.consumed + (if e.status = .overflow then 0 else 1)
      out := s.call.out ++ e.out
      status := e.status } }

/-- An accepted byte, the state before it set to `st`. -/
theorem State.setState_accept_eq (s : State) (st : CodecState) (b : Byte) (status : Status) (h : status ≠ .overflow) :
    (s.setState st).accept b status = s.afterEffect ⟨s.inst.fold b st, [], status⟩ := by
  simp [State.accept, State.afterEffect, State.setState, State.ckUpdate, State.setComputed, State.consume,
    State.setStatus, Instance.fold, h]

/-- An illegal byte leaves `state` as it was (R61). -/
theorem State.reject_eq (s : State) (b : Byte) :
    s.reject b = s.afterEffect ⟨s.inst.fold b s.inst.state, [], .invalidChar⟩ := by
  simp [State.reject, State.accept, State.afterEffect, State.ckUpdate, State.setComputed, State.consume,
    State.setStatus, Instance.fold]

/-- The second byte of an escaped form (R90, R91, R92). -/
theorem State.unescape_eq (s : State) (b : Byte) :
    s.unescape b = s.afterEffect (emitEffect s.inst b s.hasRoom) := by
  unfold State.unescape State.emitThen emitEffect
  split
  · simp [State.accept, State.afterEffect, State.setState, State.ckUpdate, State.setComputed, State.consume,
      State.setStatus, State.append, Instance.fold]
  · simp [State.afterEffect, State.setStatus]

/-- A verbatim byte in `Started` (R89). -/
theorem decStartedOther_eq (b : Byte) (s : State) (h : s.inst.state = .started) :
    decStartedOther b s = s.afterEffect (emitEffect s.inst b s.hasRoom) := by
  unfold decStartedOther State.emitThen emitEffect
  split
  · simp [State.accept, State.afterEffect, State.ckUpdate, State.setComputed, State.consume, State.setStatus,
      State.append, Instance.fold, h]
  · simp [State.afterEffect, State.setStatus]

/-- DecByte is its effect (R81). -/
theorem decByte_eq (b : Byte) (s : State) : decByte b s = s.afterEffect (decEffect s.inst b s.hasRoom) := by
  unfold decByte decEffect
  cases hst : s.inst.state with
  | idle =>
    rcases classify_cases b with ⟨rfl, c⟩ | ⟨rfl, c⟩ | ⟨rfl, c⟩ | ⟨h2, h3, h16, c⟩ <;> simp only [c]
    · simpa [decIdleStart] using s.setState_accept_eq .started 0x02#8 .continue_ (by decide)
    · simpa [decIdleEnd, hst] using s.reject_eq 0x03#8
    · simpa [decIdleEsc, hst] using s.reject_eq 0x10#8
    · simpa [decIdleOther, hst, h2] using s.reject_eq b
  | started =>
    rcases classify_cases b with ⟨rfl, c⟩ | ⟨rfl, c⟩ | ⟨rfl, c⟩ | ⟨h2, h3, h16, c⟩ <;> simp only [c]
    · simpa [decStartedStart, hst] using s.reject_eq 0x02#8
    · by_cases hf : s.inst.config.fn.isSome = true
      · simpa [decStartedEnd, State.ckEnabled, hf] using
          s.setState_accept_eq .checksumByte0 0x03#8 .continue_ (by decide)
      · simpa [decStartedEnd, State.ckEnabled, hf] using s.setState_accept_eq .idle 0x03#8 .done (by decide)
    · simpa [decStartedEsc] using s.setState_accept_eq .escapeLatched 0x10#8 .continue_ (by decide)
    · simpa [h2, h3, h16] using decStartedOther_eq b s hst
  | escapeLatched =>
    rcases classify_cases b with ⟨rfl, c⟩ | ⟨rfl, c⟩ | ⟨rfl, c⟩ | ⟨h2, h3, h16, c⟩ <;> simp only [c]
    · simpa [decEscapedStart] using s.unescape_eq 0x02#8
    · simpa [decEscapedEnd] using s.unescape_eq 0x03#8
    · simpa [decEscapedEsc] using s.unescape_eq 0x10#8
    · simpa [decEscapedOther, hst, h2, h3, h16] using s.reject_eq b
  | checksumByte0 => simp [decCk0, State.afterEffect, State.setReceived, State.setState, State.consume, State.setStatus]
  | checksumByte1 =>
    by_cases hm : withHighByte s.inst.receivedChecksum b = s.inst.computedChecksum <;>
      simp [decCk1, State.judgeChecksum, State.checksumsMatch, State.afterEffect, State.setReceived, State.setState,
        State.consume, State.setStatus, hm]

/-- What a run of the decoder over a list of bytes gives: the instance, the count consumed, the output, the status. -/
structure DecRun where
  inst : Instance
  consumed : Nat
  out : List Byte
  status : Status
deriving DecidableEq, Repr

/-- The driving loop over a list, with `room` bytes of output room left (R80). -/
def decRun : List Byte → Nat → Instance → DecRun
  | [], _, i => ⟨i, 0, [], .continue_⟩
  | b :: rest, room, i =>
    match (decEffect i b (decide (0 < room))).status with
    | .continue_ =>
      let r := decRun rest (room - (decEffect i b (decide (0 < room))).out.length) (decEffect i b (decide (0 < room))).inst
      ⟨r.inst, r.consumed + 1, (decEffect i b (decide (0 < room))).out ++ r.out, r.status⟩
    | .overflow => ⟨i, 0, [], .overflow⟩
    | st => ⟨(decEffect i b (decide (0 < room))).inst, 1, (decEffect i b (decide (0 < room))).out, st⟩

/-- The instance a call leaves: reset on a terminal status (R18, R97). -/
def Instance.settled (i : Instance) (st : Status) : Instance :=
  if statusIsTerminal st = true then { i with state := .idle, computedChecksum := i.config.seed } else i

/-- The state after a run. -/
def State.afterRun (s : State) (r : DecRun) : State :=
  { s with
    inst := r.inst
    call := { s.call with
      consumed := s.call.consumed + r.consumed
      out := s.call.out ++ r.out
      status := r.status } }

/-- An overflowing byte changes nothing and emits nothing (R74). -/
theorem decEffect_overflow {i : Instance} {b : Byte} {room : Bool} (h : (decEffect i b room).status = .overflow) :
    decEffect i b room = ⟨i, [], .overflow⟩ := by
  revert h
  unfold decEffect emitEffect
  cases i.state <;> dsimp only <;> repeat' split
  all_goals first | (intro h; rfl) | (intro h; simp_all)

/-- A byte that needs no room emits nothing; a byte that emits, emits one (R81). -/
theorem decEffect_out_length (i : Instance) (b : Byte) (room : Bool) :
    (decEffect i b room).out.length ≤ (if room = true then 1 else 0) := by
  unfold decEffect emitEffect
  cases i.state <;> dsimp only <;> repeat' split
  all_goals simp_all

/-- The loop over the open call is the run over the list of bytes still to read (R80). -/
theorem decodeLoop_eq (rest : List Byte) (s : State) (hst : s.call.status = .continue_)
    (hin : s.call.input.drop s.call.consumed = rest) :
    decodeLoop rest.length s = s.afterRun (decRun rest (s.call.capacity - s.call.out.length) s.inst) := by
  induction rest generalizing s with
  | nil => simp [decodeLoop, decRun, State.afterRun, ← hst]
  | cons b rest ih =>
    have hget : s.inputByte = some b := by
      have := congrArg (fun l => l[0]?) hin
      simpa [State.inputByte] using this
    have hdrop : s.call.input.drop (s.call.consumed + 1) = rest := by
      have := congrArg (List.drop 1) hin
      simpa [List.drop_drop, Nat.add_comm] using this
    have hroom : s.hasRoom = decide (0 < s.call.capacity - s.call.out.length) := by
      unfold State.hasRoom Call.produced
      congr 1
      exact propext (by omega)
    simp only [List.length_cons, decodeLoop, hst, if_true, hget, decRun]
    rw [decByte_eq, hroom]
    generalize he : decEffect s.inst b (decide (0 < s.call.capacity - s.call.out.length)) = e
    cases hs : e.status with
    | continue_ =>
      rw [ih _ (by simp [State.afterEffect, hs]) (by simpa [State.afterEffect, hs] using hdrop)]
      simp only [State.afterEffect, State.afterRun, hs]
      simp [Nat.sub_sub]
      omega
    | overflow =>
      have hov := decEffect_overflow (by rw [he, hs])
      rw [he] at hov
      subst hov
      cases rest <;> simp [decodeLoop, State.afterEffect, State.afterRun]
    | done => cases rest <;> simp [decodeLoop, State.afterEffect, State.afterRun, hs]
    | invalidChar => cases rest <;> simp [decodeLoop, State.afterEffect, State.afterRun, hs]
    | invalidChecksum => cases rest <;> simp [decodeLoop, State.afterEffect, State.afterRun, hs]

/-- DECODE is the run over its input (R80). -/
theorem decodeCall_eq (input : List Byte) (capacity : Nat) (s : State) :
    decodeCall input capacity s =
      { inst := (decRun input capacity s.inst).inst.settled (decRun input capacity s.inst).status
        call := Call.none
        reply := .counts (decRun input capacity s.inst).consumed (decRun input capacity s.inst).out.length
          (decRun input capacity s.inst).status (decRun input capacity s.inst).out
        pending := s.pending
        draws := s.draws } := by
  have h := decodeLoop_eq input (s.openCall input capacity) rfl (by simp)
  simp only [State.openCall_call_capacity, State.openCall_call_out, List.length_nil, Nat.sub_zero,
    State.openCall_inst] at h
  simp only [decodeCall, h, State.returnCall_eq, State.afterRun, Instance.settled]
  simp

end Sys2Proof.Machine
end

