-- ==== Sys2Proof/Laws/Encoder.lean ====
section
/-!
SUPPORT. The encoder's laws.  `encStep` is what the micro-operation selected by the map of R60 writes and does, a function of the
instance and the next payload byte; `encRun` performs selected micro-operations over a list of payload bytes.
`encodePhases_eq` says that the four phases of R110 are exactly that run, and `encodeCall_eq` says it of a whole call.
-/

namespace Sys2Proof.Machine

/-- What the selected micro-operation does when there is room: the byte it writes, the instance after it, how many payload
bytes it consumes, its status. -/
structure EncStep where
  byte : Byte
  inst : Instance
  take : Nat
  status : Status
deriving DecidableEq, Repr

/-- The selected micro-operation of the encoder (R60, R111 to R117). -/
def encStep (i : Instance) (next : Option Byte) : Option EncStep :=
  match i.state, next with
  | .idle, _ => some ⟨0x02#8, i.fold 0x02#8 .started, 0, .continue_⟩
  | .started, some v =>
    if isMarker v = true then some ⟨0x10#8, i.fold 0x10#8 .escapeLatched, 0, .continue_⟩
    else some ⟨v, i.fold v .started, 1, .continue_⟩
  | .started, none =>
    if i.config.fn.isSome = true then some ⟨0x03#8, i.fold 0x03#8 .checksumByte0, 0, .continue_⟩
    else some ⟨0x03#8, i.fold 0x03#8 .idle, 0, .done⟩
  | .escapeLatched, some v =>
    some ⟨v, i.fold v (if isMarker v = true then .started else .escapeLatched), 1, .continue_⟩
  | .escapeLatched, none => none
  | .checksumByte0, some v =>
    some ⟨v, i.fold v (if isMarker v = true then .started else .checksumByte0), 1, .continue_⟩
  | .checksumByte0, none =>
    some ⟨lowByte i.computedChecksum, { i with state := .checksumByte1 }, 0, .continue_⟩
  | .checksumByte1, some v =>
    some ⟨v, i.fold v (if isMarker v = true then .started else .checksumByte1), 1, .continue_⟩
  | .checksumByte1, none =>
    some ⟨highByte i.computedChecksum, { i with state := .idle }, 0, .done⟩

/-- The state after a write and what follows it. -/
def State.afterStep (s : State) (e : EncStep) : State :=
  { s with
    inst := e.inst
    call := { s.call with
      consumed := s.call.consumed + e.take
      out := s.call.out ++ [e.byte]
      status := e.status } }

/-- A micro-operation of the encoder as a whole: with room its step, without room `Overflow` and nothing else (R74, R77). -/
def State.tryStep (s : State) (e : EncStep) : State :=
  if s.hasRoom = true then s.afterStep e else s.setStatus .overflow

theorem State.tryStep_room {s : State} (h : s.hasRoom = true) (e : EncStep) : s.tryStep e = s.afterStep e := by
  simp [State.tryStep, h]

theorem State.tryStep_full {s : State} (h : s.hasRoom = false) (e : EncStep) :
    s.tryStep e = s.setStatus .overflow := by
  simp [State.tryStep, h]

theorem encOpen_eq (s : State) (hs : s.call.status = .continue_) :
    encOpen s = s.tryStep ⟨0x02#8, s.inst.fold 0x02#8 .started, 0, .continue_⟩ := by
  unfold encOpen State.emitThen State.tryStep
  split
  · simp [State.afterStep, State.ckUpdate, State.setComputed, State.setState, State.append, Instance.fold, hs]
  · rfl

theorem encEsc_eq (s : State) (hs : s.call.status = .continue_) :
    encEsc s = s.tryStep ⟨0x10#8, s.inst.fold 0x10#8 .escapeLatched, 0, .continue_⟩ := by
  unfold encEsc State.emitThen State.tryStep
  split
  · simp [State.afterStep, State.ckUpdate, State.setComputed, State.setState, State.append, Instance.fold, hs]
  · rfl

theorem encMark_eq (v : Byte) (s : State) (hs : s.call.status = .continue_) :
    encMark v s = s.tryStep ⟨v, s.inst.fold v .started, 1, .continue_⟩ := by
  unfold encMark State.emitThen State.tryStep
  split
  · simp [State.afterStep, State.ckUpdate, State.setComputed, State.setState, State.append, State.consume,
      Instance.fold, hs]
  · rfl

theorem encLit_eq (v : Byte) (s : State) (hs : s.call.status = .continue_) :
    encLit v s = s.tryStep ⟨v, s.inst.fold v s.inst.state, 1, .continue_⟩ := by
  unfold encLit State.emitThen State.tryStep
  split
  · simp [State.afterStep, State.ckUpdate, State.setComputed, State.append, State.consume, Instance.fold, hs]
  · rfl

theorem encClose_eq (s : State) :
    encClose s = s.tryStep
      (if s.inst.config.fn.isSome = true then ⟨0x03#8, s.inst.fold 0x03#8 .checksumByte0, 0, .continue_⟩
      else ⟨0x03#8, s.inst.fold 0x03#8 .idle, 0, .done⟩) := by
  unfold encClose State.emitThen State.tryStep
  by_cases hf : s.inst.config.fn.isSome = true <;> split <;>
    simp [State.afterEnd, State.ckEnabled, State.afterStep, State.ckUpdate, State.setComputed, State.setState,
      State.setStatus, State.append, Instance.fold, hf]

theorem encCk0_eq (s : State) (hs : s.call.status = .continue_) :
    encCk0 s = s.tryStep
      ⟨lowByte s.inst.computedChecksum, { s.inst with state := .checksumByte1 }, 0, .continue_⟩ := by
  unfold encCk0 State.emitThen State.tryStep
  split
  · simp [State.afterStep, State.setState, State.append, hs]
  · rfl

theorem encCk1_eq (s : State) :
    encCk1 s = s.tryStep ⟨highByte s.inst.computedChecksum, { s.inst with state := .idle }, 0, .done⟩ := by
  unfold encCk1 State.emitThen State.tryStep
  split
  · simp [State.afterStep, State.setState, State.setStatus, State.append]
  · rfl

/-- Selected micro-operations one after another, at most `k`, while the status is `Continue` (R60, R110). -/
def encGreedy : Nat → State → State
  | 0, s => s
  | k + 1, s =>
    if s.call.status = .continue_ then
      match encStep s.inst s.inputByte with
      | some e => encGreedy k (s.tryStep e)
      | none => s
    else s

theorem encGreedy_stop (k : Nat) {s : State} (h : s.call.status ≠ .continue_) : encGreedy k s = s := by
  cases k <;> simp [encGreedy, h]

theorem encGreedy_step {k : Nat} {s : State} {e : EncStep} (hs : s.call.status = .continue_)
    (he : encStep s.inst s.inputByte = some e) : encGreedy (k + 1) s = encGreedy k (s.tryStep e) := by
  simp [encGreedy, hs, he]

theorem encGreedy_none {k : Nat} {s : State} (he : encStep s.inst s.inputByte = none) : encGreedy k s = s := by
  cases k <;> simp [encGreedy, he]

/-- Phases 3 and 4 of R110. -/
def encodeTail (s : State) : State :=
  ((s.unlessOverflow fun s => s.whenState .started encClose).unlessOverflow
    fun s => s.whenState .checksumByte0 encCk0).unlessOverflow
    fun s => s.whenState .checksumByte1 encCk1

theorem encodeTail_overflow {s : State} (h : s.call.status = .overflow) : encodeTail s = s := by
  simp [encodeTail, State.unlessOverflow, h]

@[simp] theorem State.afterStep_inst (s : State) (e : EncStep) : (s.afterStep e).inst = e.inst := rfl

@[simp] theorem State.afterStep_call (s : State) (e : EncStep) :
    (s.afterStep e).call = { s.call with
      consumed := s.call.consumed + e.take, out := s.call.out ++ [e.byte], status := e.status } := rfl

/-- With no input left the phases 3 and 4 are the selected micro-operations. -/
theorem encodeTail_eq (k : Nat) (hk : 3 ≤ k) (s : State) (hs : s.call.status = .continue_)
    (hst : s.inst.state ≠ .idle) (hin : s.inputByte = none) : encodeTail s = encGreedy k s := by
  obtain ⟨k, rfl⟩ : ∃ j, k = j + 3 := ⟨k - 3, by omega⟩
  have hne : s.call.status ≠ .overflow := by simp [hs]
  have ck1 : ∀ (t : State) (j : Nat), t.call.status = .continue_ → t.inst.state = .checksumByte1 →
      t.inputByte = none → encCk1 t = encGreedy (j + 1) t := by
    intro t j ht hst hin
    rw [encGreedy_step ht (by simp [encStep, hst, hin]; rfl), encCk1_eq]
    rw [encGreedy_stop]
    unfold State.tryStep
    split <;> simp
  have ck0 : ∀ (t : State) (j : Nat), t.call.status = .continue_ → t.inst.state = .checksumByte0 →
      t.inputByte = none →
      (encCk0 t).unlessOverflow (fun s => s.whenState .checksumByte1 encCk1) = encGreedy (j + 2) t := by
    intro t j ht hst hin
    rw [encGreedy_step ht (by simp [encStep, hst, hin]; rfl), encCk0_eq _ ht]
    cases hr : t.hasRoom
    · rw [State.tryStep_full hr, encGreedy_stop _ (by simp)]
      simp [State.unlessOverflow]
    · rw [State.tryStep_room hr, State.unlessOverflow_of_ne (by simp), State.whenState_eq (by simp)]
      exact ck1 _ _ (by simp) (by simp) (by simpa [State.inputByte] using hin)
  unfold encodeTail
  cases hst' : s.inst.state with
  | idle => exact absurd hst' hst
  | started =>
    rw [State.unlessOverflow_of_ne hne, State.whenState_eq hst', encClose_eq]
    by_cases hf : s.inst.config.fn.isSome = true
    · have he : encStep s.inst s.inputByte =
          some ⟨0x03#8, s.inst.fold 0x03#8 .checksumByte0, 0, .continue_⟩ := by
        simp [encStep, hst', hin, hf]
      rw [encGreedy_step hs he]
      simp only [hf, if_true]
      cases hr : s.hasRoom
      · rw [State.tryStep_full hr, encGreedy_stop _ (by simp)]
        simp [State.unlessOverflow]
      · rw [State.tryStep_room hr, State.unlessOverflow_of_ne (s := s.afterStep _) (by simp),
          State.whenState_eq (s := s.afterStep _) (by simp [Instance.fold])]
        exact ck0 _ _ (by simp) (by simp [Instance.fold]) (by simpa [State.inputByte] using hin)
    · have he : encStep s.inst s.inputByte = some ⟨0x03#8, s.inst.fold 0x03#8 .idle, 0, .done⟩ := by
        simp [encStep, hst', hin, hf]
      rw [encGreedy_step hs he]
      simp only [hf, Bool.false_eq_true, if_false]
      cases hr : s.hasRoom
      · rw [State.tryStep_full hr, encGreedy_stop _ (by simp)]
        simp [State.unlessOverflow]
      · rw [State.tryStep_room hr, encGreedy_stop _ (by simp)]
        simp [State.unlessOverflow, State.whenState, Instance.fold]
  | escapeLatched =>
    rw [encGreedy_none (by simp [encStep, hst', hin])]
    simp [State.unlessOverflow, State.whenState, hst']
  | checksumByte0 =>
    rw [State.unlessOverflow_of_ne hne, State.whenState_ne (by simp [hst']), State.unlessOverflow_of_ne hne,
      State.whenState_eq hst']
    exact ck0 _ (k + 1) hs hst' hin
  | checksumByte1 =>
    rw [State.unlessOverflow_of_ne hne, State.whenState_ne (by simp [hst']), State.unlessOverflow_of_ne hne,
      State.whenState_ne (by simp [hst']), State.unlessOverflow_of_ne hne, State.whenState_eq hst']
    exact ck1 _ (k + 2) hs hst' hin

theorem encodeLoop_overflow (k : Nat) {s : State} (h : s.call.status = .overflow) : encodeLoop k s = s := by
  cases k <;> simp [encodeLoop, h]

theorem State.tryStep_status (s : State) (e : EncStep) :
    (s.tryStep e).call.status = if s.hasRoom = true then e.status else .overflow := by
  unfold State.tryStep
  split <;> simp

/-- Phases 2, 3 and 4 from a state other than `Idle` are the selected micro-operations (R60, R110). -/
theorem encodeLoop_eq (rest : List Byte) (k : Nat) (hk : 2 * rest.length + 3 ≤ k) (s : State)
    (hs : s.call.status = .continue_) (hst : s.inst.state ≠ .idle)
    (hin : s.call.input.drop s.call.consumed = rest) :
    encodeTail (encodeLoop rest.length s) = encGreedy k s := by
  induction rest generalizing k s with
  | nil =>
    have hnone : s.inputByte = none := by
      simpa [State.inputByte] using hin
    simpa [encodeLoop] using encodeTail_eq k (by simpa using hk) s hs hst hnone
  | cons v rest ih =>
    have hget : s.inputByte = some v := by
      have := congrArg (fun l => l[0]?) hin
      simpa [State.inputByte] using this
    have hdrop : s.call.input.drop (s.call.consumed + 1) = rest := by
      have := congrArg (List.drop 1) hin
      simpa [List.drop_drop, Nat.add_comm] using this
    simp only [List.length_cons] at hk
    -- one step that consumes the byte
    have one : ∀ (j : Nat) (t : State) (i : Instance), 2 * rest.length + 3 ≤ j → i.state ≠ .idle →
        t.call.input.drop (t.call.consumed + 1) = rest →
        encodeTail (encodeLoop rest.length (t.tryStep ⟨v, i, 1, .continue_⟩)) =
          encGreedy j (t.tryStep ⟨v, i, 1, .continue_⟩) := by
      intro j t i hj hi ht
      cases hr : t.hasRoom
      · rw [State.tryStep_full hr, encodeLoop_overflow _ (by simp), encodeTail_overflow (by simp),
          encGreedy_stop _ (by simp)]
      · rw [State.tryStep_room hr]
        exact ih j hj _ (by simp) (by simpa using hi) (by simpa using ht)
    obtain ⟨k, rfl⟩ : ∃ j, k = j + 2 := ⟨k - 2, by omega⟩
    simp only [List.length_cons, encodeLoop, hs, hget]
    simp only [reduceCtorEq, if_false]
    unfold encodeByte
    cases hm : isMarker v
    · -- ENC.LIT
      simp only [Bool.false_eq_true, if_false]
      rw [encLit_eq _ _ hs]
      have he : encStep s.inst s.inputByte = some ⟨v, s.inst.fold v s.inst.state, 1, .continue_⟩ := by
        unfold encStep
        cases h : s.inst.state
        · exact absurd h hst
        all_goals simp [hget, hm]
      rw [encGreedy_step hs he]
      exact one _ _ _ (by omega) (by simpa [Instance.fold] using hst) hdrop
    · simp only [if_true]
      by_cases hstart : s.inst.state = .started
      · -- ENC.ESC, then ENC.MARK
        rw [State.whenState_eq hstart, encEsc_eq _ hs, encGreedy_step hs (by simp [encStep, hstart, hget, hm]; rfl)]
        cases hr : s.hasRoom
        · rw [State.tryStep_full hr, State.unlessOverflow_overflow (by simp), encodeLoop_overflow _ (by simp),
            encodeTail_overflow (by simp), encGreedy_stop _ (by simp)]
        · rw [State.tryStep_room hr, State.unlessOverflow_of_ne (by simp), encMark_eq _ _ (by simp)]
          have he : encStep (s.inst.fold 0x10#8 .escapeLatched) (some v) =
              some ⟨v, (s.inst.fold 0x10#8 .escapeLatched).fold v .started, 1, .continue_⟩ := by
            simp [encStep, Instance.fold, hm]
          have hget' : (s.afterStep ⟨0x10#8, s.inst.fold 0x10#8 .escapeLatched, 0, .continue_⟩).inputByte = some v := by
            simpa [State.inputByte] using hget
          rw [encGreedy_step (by simp) (by rw [hget']; exact he)]
          exact one _ _ _ (by omega) (by simp [Instance.fold]) (by simpa using hdrop)
      · -- ENC.MARK alone
        rw [State.whenState_ne hstart, State.unlessOverflow_of_ne (by simp [hs]), encMark_eq _ _ hs]
        have he : encStep s.inst s.inputByte = some ⟨v, s.inst.fold v .started, 1, .continue_⟩ := by
          unfold encStep
          cases h : s.inst.state
          · exact absurd h hst
          · exact absurd h hstart
          all_goals simp [hget, hm]
        rw [encGreedy_step hs he]
        exact one _ _ _ (by omega) (by simp [Instance.fold]) hdrop

/-- The four phases of R110 are the micro-operations the map of R60 selects; `2n + 4` of them are enough (R186). -/
theorem encodePhases_eq (s : State) (k : Nat) (hk : 2 * s.call.input.length + 4 ≤ k)
    (hs : s.call.status = .continue_) (hc : s.call.consumed = 0) : encodePhases s = encGreedy k s := by
  change encodeTail ((s.whenState .idle encOpen).unlessOverflow (encodeLoop s.call.input.length)) = _
  obtain ⟨k, rfl⟩ : ∃ j, k = j + 1 := ⟨k - 1, by omega⟩
  by_cases hst : s.inst.state = .idle
  · have he : encStep s.inst s.inputByte = some ⟨0x02#8, s.inst.fold 0x02#8 .started, 0, .continue_⟩ := by
      simp [encStep, hst]
    rw [State.whenState_eq hst, encOpen_eq _ hs, encGreedy_step hs he]
    cases hr : s.hasRoom
    · rw [State.tryStep_full hr, State.unlessOverflow_overflow (by simp), encodeTail_overflow (by simp),
        encGreedy_stop _ (by simp)]
    · rw [State.tryStep_room hr, State.unlessOverflow_of_ne (by simp)]
      exact encodeLoop_eq s.call.input _ (by omega) _ (by simp) (by simp [Instance.fold]) (by simp [hc])
  · rw [State.whenState_ne hst, State.unlessOverflow_of_ne (by simp [hs])]
    exact encodeLoop_eq s.call.input _ (by omega) _ hs hst (by simp [hc])

/-- The selected micro-operations over a list of payload bytes, with `room` bytes of output room left. -/
def encRun : Nat → List Byte → Nat → Instance → DecRun
  | 0, _, _, i => ⟨i, 0, [], .continue_⟩
  | k + 1, p, room, i =>
    match encStep i p.head? with
    | none => ⟨i, 0, [], .continue_⟩
    | some e =>
      if room = 0 then ⟨i, 0, [], .overflow⟩
      else
        match e.status with
        | .continue_ =>
          let r := encRun k (p.drop e.take) (room - 1) e.inst
          ⟨r.inst, e.take + r.consumed, e.byte :: r.out, r.status⟩
        | st => ⟨e.inst, e.take, [e.byte], st⟩

theorem encGreedy_eq (k : Nat) (s : State) (hs : s.call.status = .continue_) :
    encGreedy k s =
      s.afterRun (encRun k (s.call.input.drop s.call.consumed) (s.call.capacity - s.call.out.length) s.inst) := by
  induction k generalizing s with
  | zero => simp [encGreedy, encRun, State.afterRun, ← hs]
  | succ k ih =>
    have hnext : s.inputByte = (s.call.input.drop s.call.consumed).head? := by simp [State.inputByte]
    have hroom : s.hasRoom = decide (s.call.capacity - s.call.out.length ≠ 0) := by
      unfold State.hasRoom Call.produced
      congr 1
      exact propext (by omega)
    simp only [encGreedy, hs, if_true, encRun]
    rw [hnext]
    cases he : encStep s.inst (s.call.input.drop s.call.consumed).head? with
    | none => simp [State.afterRun, ← hs]
    | some e =>
      simp only
      by_cases hr : s.call.capacity - s.call.out.length = 0
      · rw [State.tryStep_full (by simp [hroom, hr]), encGreedy_stop _ (by simp)]
        simp [hr, State.afterRun, State.setStatus]
      · rw [State.tryStep_room (by simp [hroom, hr])]
        simp only [hr, if_false]
        cases hst : e.status with
        | continue_ =>
          rw [ih _ (by simp [hst])]
          simp [State.afterRun, State.afterStep, List.drop_drop, Nat.sub_sub, Nat.add_assoc]
        | done => rw [encGreedy_stop _ (by simp [hst])]; simp [State.afterRun, State.afterStep, hst]
        | overflow => rw [encGreedy_stop _ (by simp [hst])]; simp [State.afterRun, State.afterStep, hst]
        | invalidChar => rw [encGreedy_stop _ (by simp [hst])]; simp [State.afterRun, State.afterStep, hst]
        | invalidChecksum => rw [encGreedy_stop _ (by simp [hst])]; simp [State.afterRun, State.afterStep, hst]

/-- ENCODE is the run of its micro-operations over its input (R110, R60). -/
theorem encodeCall_eq (input : List Byte) (capacity : Nat) (s : State) :
    encodeCall input capacity s =
      { inst := (encRun (2 * input.length + 4) input capacity s.inst).inst.settled
          (encRun (2 * input.length + 4) input capacity s.inst).status
        call := Call.none
        reply := .counts (encRun (2 * input.length + 4) input capacity s.inst).consumed
          (encRun (2 * input.length + 4) input capacity s.inst).out.length
          (encRun (2 * input.length + 4) input capacity s.inst).status
          (encRun (2 * input.length + 4) input capacity s.inst).out
        pending := s.pending
        draws := s.draws } := by
  have h := encodePhases_eq (s.openCall input capacity) _ (Nat.le_refl _) rfl rfl
  rw [encGreedy_eq _ _ rfl] at h
  simp only [State.openCall_call_input, State.openCall_call_consumed, State.openCall_call_capacity,
    State.openCall_call_out, List.length_nil, Nat.sub_zero, List.drop_zero, State.openCall_inst] at h
  simp only [encodeCall, h, State.returnCall_eq, State.afterRun, Instance.settled]
  simp

end Sys2Proof.Machine
end

