-- ==== Sys2Proof/Laws/Runs.lean ====
section
/-!
SUPPORT. What a run of the decoder (`decRun`) and of the encoder (`encRun`) can do: how much it consumes and produces,
which registers it leaves alone, how a run splits into runs (R74, R76, R96, R102).
-/

namespace Sys2Proof.Machine

/-- A status that is not terminal resets nothing (R18). -/
theorem Instance.settled_eq {i : Instance} {st : Status} (h : statusIsTerminal st = false) : i.settled st = i :=
    by simp [Instance.settled, h]

/-- A reset writes no config (R72). -/
theorem Instance.settled_config (i st) : (Instance.settled i st).config = i.config := by
  unfold Instance.settled; split <;> rfl

/-- A reset does not write `received_checksum` (R13, R72). -/
theorem Instance.settled_received (i st) : (Instance.settled i st).receivedChecksum = i.receivedChecksum := by
  unfold Instance.settled; split <;> rfl

/-- The five illegal cells (R61). -/
theorem decEffect_invalidChar_iff (i : Instance) (b : Byte) (room : Bool) :
   ((decEffect i b room).status = .invalidChar ↔
      (i.state = .idle ∧ b = 0x03#8) ∨ (i.state = .idle ∧ b = 0x10#8) ∨
      (i.state = .idle ∧ b ≠ 0x02#8 ∧ b ≠ 0x03#8 ∧ b ≠ 0x10#8) ∨
      (i.state = .started ∧ b = 0x02#8) ∨
      (i.state = .escapeLatched ∧ b ≠ 0x02#8 ∧ b ≠ 0x03#8 ∧ b ≠ 0x10#8)) := by
  unfold decEffect emitEffect
  cases i.state <;> dsimp only <;> repeat' split
  all_goals simp_all
  all_goals tauto

/-- A byte writes no config (R14). -/
theorem decEffect_config (i b r) : (decEffect i b r).inst.config = i.config := by
  unfold decEffect emitEffect
  cases i.state <;> dsimp only <;> repeat' split
  all_goals rfl

/-- Room matters only to a byte that overflows without it (R157). -/
theorem decEffect_room (i : Instance) (b : Byte) (h : (decEffect i b false).status ≠ .overflow) : decEffect i b false
    = decEffect i b true := by
  revert h
  unfold decEffect emitEffect
  cases i.state <;> dsimp only <;> repeat' split
  all_goals simp_all

/-- A run of the decoder writes no config (R14). -/
theorem decRun_config (l : List Byte) (c : Nat) (i : Instance) : (decRun l c i).inst.config = i.config := by
  induction l generalizing c i with
  | nil => rfl
  | cons b l ih =>
    simp only [decRun]
    split <;> simp [ih, decEffect_config]

/-- The counts of a decoder run (R76, R80, R96). -/
theorem decRun_consumed (l : List Byte) (c : Nat) (i : Instance) :
    (decRun l c i).consumed ≤ l.length ∧ (decRun l c i).out.length ≤ c ∧
        (decRun l c i).out.length ≤ (decRun l c i).consumed ∧
    ((decRun l c i).status = .continue_ → (decRun l c i).consumed = l.length) ∧
    ((decRun l c i).status = .overflow → (decRun l c i).out.length = c) ∧
    (statusIsTerminal (decRun l c i).status = true → 1 ≤ (decRun l c i).consumed) := by
  induction l generalizing c i with
  | nil => simp [decRun, statusIsTerminal]
  | cons b l ih =>
    have hl := decEffect_out_length i b (decide (0 < c))
    have hov : (decEffect i b (decide (0 < c))).status = .overflow → c = 0 := by
      intro h
      by_contra hc
      have : decide (0 < c) = true := by simp; omega
      rw [this] at h
      revert h
      unfold decEffect emitEffect
      cases i.state <;> dsimp only <;> repeat' split
      all_goals simp_all
    obtain ⟨a1, a2, a3, a4, a5, a6⟩ := ih (c - (decEffect i b (decide (0 < c))).out.length) (decEffect i b (decide (0
        < c))).inst
    simp only [decRun]
    simp at hl
    split
    · simp only [List.length_cons, List.length_append]
      refine ⟨by omega, ?_, ?_, ?_, ?_, ?_⟩
      · split at hl <;> omega
      · split at hl <;> omega
      · intro h; have := a4 h; omega
      · intro h; have := a5 h; split at hl <;> omega
      · intro h; omega
    · simp [statusIsTerminal]; exact (hov ‹_›).symm
    · rename_i h1 h2
      simp only [List.length_cons]
      refine ⟨by omega, ?_, ?_, fun h => absurd h h1, fun h => absurd h h2, fun _ => Nat.le_refl _⟩
      · split at hl <;> omega
      · split at hl <;> omega

/-- A run stops at its terminal status (R96, R101). -/
theorem decRun_append_terminal (a b : List Byte) (c : Nat) (i : Instance) (h : statusIsTerminal (decRun a c i).status
    = true) :
    decRun (a ++ b) c i = decRun a c i := by
  induction a generalizing c i with
  | nil => simp [decRun, statusIsTerminal] at h
  | cons x a ih =>
    simp only [decRun, List.cons_append] at h ⊢
    split
    · rename_i hc
      simp only [hc] at h
      rw [ih _ _ h]
    · rfl
    · rfl

/-- A run over `a ++ b` is the run over `a` with any room, then the run over what that left (R102). -/
theorem decRun_split (a b : List Byte) (c C : Nat) (i : Instance) (hC : (a ++ b).length ≤ C) :
    decRun (a ++ b) C i =
      if statusIsTerminal (decRun a c i).status = true then decRun a c i
      else
        let r := decRun a c i
        let q := decRun (a.drop r.consumed ++ b) (C - r.out.length) r.inst
        ⟨q.inst, r.consumed + q.consumed, r.out ++ q.out, q.status⟩ := by
  induction a generalizing c C i with
  | nil => simp [decRun, statusIsTerminal]
  | cons x a ih =>
    simp only [List.cons_append, List.length_cons] at hC
    have hC0 : decide (0 < C) = true := by simp; omega
    by_cases hov : (decEffect i x (decide (0 < c))).status = .overflow
    · simp only [decRun, hov, statusIsTerminal, List.drop_zero]
      simp
    · have hsame : decEffect i x (decide (0 < c)) = decEffect i x (decide (0 < C)) := by
        rw [hC0]
        by_cases h0 : decide (0 < c) = true
        · rw [h0]
        · simp only [Bool.not_eq_true] at h0
          rw [h0] at hov ⊢
          exact decEffect_room _ _ hov
      have hl := decEffect_out_length i x (decide (0 < C))
      simp only [decRun, List.cons_append, hsame] at hov ⊢
      split
      · rename_i hc
        rw [ih (c - (decEffect i x (decide (0 < C))).out.length) _ _ (by rw [hC0] at hl ⊢; simp at hl; omega)]
        split
        · rfl
        · simp [Nat.sub_sub]; omega
      · exact absurd ‹_› hov
      · rename_i h1 h2
        cases h : (decEffect i x (decide (0 < C))).status <;> simp_all [statusIsTerminal]

/-- A write leaves `Continue`, or it ends the frame (R115, R117). -/
theorem encStep_status {i : Instance} {n : Option Byte} {e : EncStep} (h : encStep i n = some e) :
    e.status = .continue_ ∨ (e.status = .done ∧ n = none) := by
  unfold encStep at h
  split at h <;> (try split at h) <;> simp at h <;> subst h <;> simp

/-- A write changes neither the config nor `received_checksum` (R13, R14). -/
theorem encStep_config {i n e} (h : encStep i n = some e) : e.inst.config = i.config ∧
    e.inst.receivedChecksum = i.receivedChecksum := by
  unfold encStep at h
  split at h <;> (try split at h) <;> simp at h <;> subst h <;> simp [Instance.fold]

/-- A run of the encoder ends with one of three statuses (R119). -/
theorem encRun_status (k : Nat) (p : List Byte) (room : Nat) (i : Instance) :
    (encRun k p room i).status = .continue_ ∨ (encRun k p room i).status = .done ∨ (encRun k p room i).status =
        .overflow := by
  induction k generalizing p room i with
  | zero => simp [encRun]
  | succ k ih =>
    simp only [encRun]
    cases he : encStep i p.head? with
    | none => simp
    | some e =>
      by_cases hr : room = 0
      · simp [hr]
      · rcases encStep_status he with h | ⟨h, _⟩ <;> simp [hr, h]
        exact ih _ _ _

/-- A run of the encoder changes neither the config nor `received_checksum` (R13, R14). -/
theorem encRun_config (k : Nat) (p : List Byte) (room : Nat) (i : Instance) :
    (encRun k p room i).inst.config = i.config ∧ (encRun k p room i).inst.receivedChecksum = i.receivedChecksum := by
  induction k generalizing p room i with
  | zero => simp [encRun]
  | succ k ih =>
    simp only [encRun]
    cases he : encStep i p.head? with
    | none => simp
    | some e =>
      have := encStep_config he
      by_cases hr : room = 0
      · simp [hr]
      · rcases encStep_status he with h | ⟨h, _⟩ <;> simp [hr, h, ih, this]

/-- The counts of an encoder run (R76, R110). -/
theorem encRun_consumed (k : Nat) (p : List Byte) (room : Nat) (i : Instance) :
    (encRun k p room i).consumed ≤ p.length ∧ (encRun k p room i).out.length ≤ room ∧
    ((encRun k p room i).status = .done → (encRun k p room i).consumed = p.length) ∧
    ((encRun k p room i).status = .overflow → (encRun k p room i).out.length = room) := by
  induction k generalizing p room i with
  | zero => simp [encRun]
  | succ k ih =>
    simp only [encRun]
    cases he : encStep i p.head? with
    | none => simp
    | some e =>
      have ht : e.take ≤ p.length ∧ (e.status = .done → e.take = p.length) := by
        cases p with
        | nil =>
          cases hs : i.state <;> simp [encStep, hs] at he <;> (try split at he) <;> (try simp at he) <;> subst he <;>
              simp
        | cons v p =>
          cases hs : i.state <;> simp [encStep, hs] at he <;> (try split at he) <;> (try simp at he) <;> subst he <;>
              simp
      by_cases hr : room = 0
      · simp [hr]
      · obtain ⟨a1, a2, a3, a4⟩ := ih (p.drop e.take) (room - 1) e.inst
        simp only [List.length_drop] at *
        rcases encStep_status he with h | ⟨h, h'⟩
        · simp only [hr, if_false, h, List.length_cons]
          exact ⟨by omega, by omega, fun h => by have := a3 h; omega, fun h => by have := a4 h; omega⟩
        · simp only [hr, if_false, h]
          exact ⟨ht.1, by simp; omega, fun _ => ht.2 h, by simp⟩

/-- A run that has room and writes goes on (R110). -/
theorem encRun_cons {k p room i} {e : EncStep} (h : encStep i p.head? = some e) (hs : e.status = .continue_) :
    encRun (k + 1) p (room + 1) i =
      let r := encRun k (p.drop e.take) room e.inst
      ⟨r.inst, e.take + r.consumed, e.byte :: r.out, r.status⟩ := by
  simp [encRun, h, hs]

/-- How many micro-operations an encoder can still perform (R186). -/
def encBound (st : CodecState) (n : Nat) : Nat :=
  match st with
  | .idle => 2 * n + 4
  | .started => 2 * n + 3
  | .escapeLatched => if n = 0 then 0 else 2 * n + 2
  | .checksumByte0 => 2 * n + 2
  | .checksumByte1 => if n = 0 then 1 else 2 * n + 2

/-- Every write uses up one of them. -/
theorem encBound_step {i : Instance} {l : List Byte} {e : EncStep} (h : encStep i l.head? = some e) :
    (e.status = .continue_ ∧ encBound e.inst.state (l.length - e.take) + 1 ≤ encBound i.state l.length) ∨ (e.status =
        .done ∧ 1 ≤ encBound i.state l.length) := by
  cases l with
  | nil =>
    cases hs : i.state <;> simp [encStep, hs] at h <;> (try split at h) <;> (try simp at h) <;> subst h <;> simp
        [encBound, Instance.fold]
  | cons v l =>
    cases hs : i.state <;> simp [encStep, hs] at h <;> (try split at h) <;> (try simp at h) <;> subst h <;> simp
        [encBound, Instance.fold] <;> (try split) <;> (try omega)

/-- They are at most `2n + 4` (R186). -/
theorem encBound_le (st n) : encBound st n ≤ 2 * n + 4 :=
    by unfold encBound; cases st <;> simp <;> (try split) <;> omega

/-- The instance a DECODE leaves. -/
theorem decodeCall_inst (p c s) : (decodeCall p c s).inst =
    (decRun p c s.inst).inst.settled (decRun p c s.inst).status := by
  rw [decodeCall_eq]

end Sys2Proof.Machine
end

