-- ==== Sys2Proof/Laws/Selection.lean ====
section
/-!
SUPPORT. The selected micro-operation, executed: what `exec` does with what the maps of R59 and R60 select, and the
traces of a whole call (R80, R110).
-/

namespace Sys2Proof.Machine

open Sys2Proof.Safety

theorem exec_encode (p : List Byte) (c : Nat) (s : State) : exec (.encode p c) s = .next (encodeCall p c s) := rfl

theorem exec_decode (p : List Byte) (c : Nat) (s : State) : exec (.decode p c) s = .next (decodeCall p c s) := rfl

/-- The selected micro-operation of the decoder is DecByte (R81). -/
theorem exec_wire (b : Byte) (s : State) : exec (decodeWire s.inst.state b) s = .next (decByte b s) := by
  unfold decByte
  cases h : s.inst.state <;> simp only [decodeWire] <;> first | rfl | (cases classify b <;> rfl)

/-- `folded` is CkUpdate (R71). -/
theorem folded_eq (i : Instance) (b : Byte) : folded i b = ckStep i.config i.computedChecksum b := rfl

/-- TryEmit and what follows it, both cases (R70, R74). -/
theorem State.emitThen_eq (s : State) (b) (f : State →
    State) : s.emitThen b f = if s.call.out.length < s.call.capacity then f (s.append b) else s.setStatus .overflow :=
        by
  split
  · exact State.emitThen_room ‹_› _ _
  · exact State.emitThen_full ‹_› _ _

/-- What neither an append nor a status touches, TryEmit leaves alone. -/
theorem State.emitThen_project {α} (g : State → α) (s : State) (b f) (hf : ∀ u, g (f u) = g u) (h1 : ∀ u b,
    g (u.append b) = g u) (h2 : ∀ u st, g (u.setStatus st) = g u) : g (s.emitThen b f) = g s := by
  unfold State.emitThen; split <;> simp [hf, h1, h2]

/-- The selected micro-operation of the encoder is its step; where nothing is selected there is none (R60). -/
theorem exec_selected (s : State) (hs : s.call.status = .continue_) :
    (∀ e, encStep s.inst s.inputByte = some e → ∃ op, decodePayload s.inst.state s.inputByte = .ok op ∧
        exec op s = .next (s.tryStep e)) ∧
    (encStep s.inst s.inputByte = none → decodePayload s.inst.state s.inputByte = .error .nothingSelected) := by
  have hopen := congrArg (Host.Outcome.next (φ := Fault) (ρ := Refusal)) (encOpen_eq s hs)
  have hesc := congrArg (Host.Outcome.next (φ := Fault) (ρ := Refusal)) (encEsc_eq s hs)
  have hmark := fun v => congrArg (Host.Outcome.next (φ := Fault) (ρ := Refusal)) (encMark_eq v s hs)
  have hlit := fun v => congrArg (Host.Outcome.next (φ := Fault) (ρ := Refusal)) (encLit_eq v s hs)
  have hclose := congrArg (Host.Outcome.next (φ := Fault) (ρ := Refusal)) (encClose_eq s)
  have h0 := congrArg (Host.Outcome.next (φ := Fault) (ρ := Refusal)) (encCk0_eq s hs)
  have h1 := congrArg (Host.Outcome.next (φ := Fault) (ρ := Refusal)) (encCk1_eq s)
  cases hst : s.inst.state with
  | idle =>
    refine ⟨fun e he => ⟨.encOpen, rfl, ?_⟩, fun h => ?_⟩
    · simp only [encStep, hst] at he; cases he; exact hopen
    · simp [encStep, hst] at h
  | started =>
    cases hn : s.inputByte with
    | none =>
      refine ⟨fun e he => ⟨.encClose, rfl, ?_⟩, fun h => ?_⟩
      · simp only [encStep, hst] at he
        by_cases hf : s.inst.config.fn.isSome = true
        · rw [if_pos hf] at he hclose; cases he; exact hclose
        · rw [if_neg hf] at he hclose; cases he; exact hclose
      · simp only [encStep, hst] at h; split at h <;> cases h
    | some v =>
      cases hm : isMarker v with
      | false =>
        refine ⟨fun e he => ⟨.encLit v, by simp [decodePayload, hm], ?_⟩, fun h => ?_⟩
        · simp [encStep, hst, hm] at he; subst he; have := hlit v; rw [hst] at this; exact this
        · simp [encStep, hst, hm] at h
      | true =>
        refine ⟨fun e he => ⟨.encEsc, by simp [decodePayload, hm], ?_⟩, fun h => ?_⟩
        · simp [encStep, hst, hm] at he; subst he; exact hesc
        · simp [encStep, hst, hm] at h
  | escapeLatched =>
    cases hn : s.inputByte with
    | none => exact ⟨fun e he => by simp [encStep, hst] at he, fun _ => rfl⟩
    | some v =>
      refine ⟨fun e he => ?_, fun h => by simp [encStep, hst] at h⟩
      simp only [encStep, hst] at he
      cases he
      cases hm : isMarker v with
      | false => exact ⟨.encLit v, by simp [decodePayload, hm], by have := hlit v; rw [hst] at this; exact this⟩
      | true => exact ⟨.encMark v, by simp [decodePayload, hm], hmark v⟩
  | checksumByte0 =>
    cases hn : s.inputByte with
    | none => exact ⟨fun e he => ⟨.encCk0, rfl, by simp only [encStep, hst] at he; cases he; exact h0⟩,
        fun h => by simp [encStep, hst] at h⟩
    | some v =>
      refine ⟨fun e he => ?_, fun h => by simp [encStep, hst] at h⟩
      simp only [encStep, hst] at he
      cases he
      cases hm : isMarker v with
      | false => exact ⟨.encLit v, by simp [decodePayload, hm], by have := hlit v; rw [hst] at this; exact this⟩
      | true => exact ⟨.encMark v, by simp [decodePayload, hm], hmark v⟩
  | checksumByte1 =>
    cases hn : s.inputByte with
    | none => exact ⟨fun e he => ⟨.encCk1, rfl, by simp only [encStep, hst] at he; cases he; exact h1⟩,
        fun h => by simp [encStep, hst] at h⟩
    | some v =>
      refine ⟨fun e he => ?_, fun h => by simp [encStep, hst] at h⟩
      simp only [encStep, hst] at he
      cases he
      cases hm : isMarker v with
      | false => exact ⟨.encLit v, by simp [decodePayload, hm], by have := hlit v; rw [hst] at this; exact this⟩
      | true => exact ⟨.encMark v, by simp [decodePayload, hm], hmark v⟩

/-- The loop of DECODE is its trace of micro-operations (R80). -/
theorem decodeTrace_run (rest : List Byte) (k : Nat) (hk : rest.length ≤ k) (s : State) (hs : s.call.status =
    .continue_)
    (hin : s.call.input.drop s.call.consumed = rest) :
    (decodeTrace k s).length ≤ rest.length ∧ execAll (decodeTrace k s) s = .next (decodeLoop rest.length s) := by
  induction rest generalizing k s with
  | nil =>
    have : s.call.input[s.call.consumed]? = none := by simpa using hin
    cases k <;> simp [decodeTrace, this, execAll, decodeLoop]
  | cons b rest ih =>
    have hget : s.call.input[s.call.consumed]? = some b := by
      have := congrArg (fun l => l[0]?) hin
      simpa using this
    have hdrop : s.call.input.drop (s.call.consumed + 1) = rest := by
      have := congrArg (List.drop 1) hin
      simpa [List.drop_drop, Nat.add_comm] using this
    obtain ⟨k, rfl⟩ : ∃ j, k = j + 1 := ⟨k - 1, by simp at hk; omega⟩
    simp only [decodeTrace, hs, hget, exec_wire, execAll, List.length_cons, decodeLoop, State.inputByte, if_true]
    by_cases hc : (decByte b s).call.status = .continue_
    · have := ih k (by simpa using hk) (decByte b s) hc (by
        rw [decByte_eq] at hc ⊢
        simp only [State.afterEffect] at hc ⊢
        simpa [hc] using hdrop)
      exact ⟨by omega, this.2⟩
    · have h1 : decodeTrace k (decByte b s) = [] := by
        cases k with
        | zero => rfl
        | succ k =>
          simp only [decodeTrace]
          cases h : (decByte b s).call.status <;> simp_all
      have h2 : decodeLoop rest.length (decByte b s) = decByte b s := by cases rest <;> simp [decodeLoop, hc]
      simp [h1, h2, execAll]

/-- The run of ENCODE is its trace of micro-operations (R60, R110, R186). -/
theorem encodeTrace_run (k : Nat) (s : State) :
    execAll (encodeTrace k s) s = .next (encGreedy k s) ∧
    (encodeTrace k s).length ≤ if s.call.status = .continue_ then encBound s.inst.state (s.call.input.length -
        s.call.consumed) else 0 := by
  induction k generalizing s with
  | zero => simp [encodeTrace, encGreedy, execAll]
  | succ k ih =>
    by_cases hs : s.call.status = .continue_
    · obtain ⟨h1, h2⟩ := exec_selected s hs
      cases he : encStep s.inst s.inputByte with
      | none =>
        have := h2 he
        simp only [State.inputByte] at this
        simp [encodeTrace, hs, this, encGreedy, he, execAll]
      | some e =>
        obtain ⟨op, ho, hx⟩ := h1 e he
        have ho' := ho
        simp only [State.inputByte] at ho'
        obtain ⟨i1, i2⟩ := ih (s.tryStep e)
        simp only [encodeTrace, hs, ho', hx, execAll, encGreedy, he, if_true]
        refine ⟨i1, ?_⟩
        have hm := encBound_step (i := s.inst) (l := s.call.input.drop s.call.consumed) (e :=
            e) (by simpa [State.inputByte] using he)
        simp only [List.length_drop, List.length_cons] at hm ⊢
        cases hr : s.hasRoom
        · rw [State.tryStep_full hr] at i2 ⊢
          simp at i2
          simp [i2]
          rcases hm with hm | hm <;> omega
        · rw [State.tryStep_room hr] at i2 ⊢
          simp only [State.afterStep_inst, State.afterStep_call] at i2
          rw [Nat.sub_add_eq] at i2
          rcases hm with ⟨a, b⟩ | ⟨a, b⟩
          · simp [a] at i2; omega
          · simp [a] at i2; simp [i2]; omega
    · have : encodeTrace (k+1) s = [] := by
        simp only [encodeTrace]
        cases h : s.call.status <;> simp_all
      simp [this, execAll, hs, encGreedy]

/-- The low lane, as masks (R9, R76 (e)). -/
theorem withLowByte_eq (w : Word) (b : Byte) : withLowByte w b = (w &&& 0xFF00#16) ||| b.zeroExtend 16 := by
  apply BitVec.eq_of_getLsbD_eq
  intro i h
  simp only [withLowByte, highByte, BitVec.getLsbD_append, BitVec.getLsbD_or, BitVec.getLsbD_and,
      BitVec.truncate_eq_setWidth, BitVec.getLsbD_setWidth, BitVec.getLsbD_extractLsb']
  have : (0xFF00#16).getLsbD i = decide (8 ≤ i ∧ i < 16) := by
    revert i; decide
  rw [this]
  by_cases hi : i < 8
  · have h8 : ¬ 8 ≤ i := by omega
    simp [hi, h8, h]
  · have h8 : i - 8 < 8 := by omega
    have hs : 8 + (i - 8) = i := by omega
    have hb : b.getLsbD i = false := BitVec.getLsbD_of_ge _ _ (by omega)
    simp [hi, h8, hs, hb, h]
    try omega

/-- The high lane, as masks (R9, R76 (e)). -/
theorem withHighByte_eq (w : Word) (b : Byte) : withHighByte w b = (w &&& 0x00FF#16) ||| (b.zeroExtend 16 <<< 8) := by
  apply BitVec.eq_of_getLsbD_eq
  intro i h
  simp only [withHighByte, lowByte, BitVec.getLsbD_append, BitVec.getLsbD_or, BitVec.getLsbD_and,
      BitVec.truncate_eq_setWidth, BitVec.getLsbD_shiftLeft, BitVec.getLsbD_setWidth, BitVec.getLsbD_extractLsb']
  have : (0x00FF#16).getLsbD i = decide (i < 8) := by
    revert i; decide
  rw [this]
  by_cases hi : i < 8
  · simp [hi]
  · have h8 : i - 8 < 16 := by omega
    simp [hi, h8, h]

/-- The low byte, as arithmetic (R76 (d)). -/
theorem lowByte_eq (w : Word) : lowByte w = BitVec.ofNat 8 (w.toNat % 256) := by
  apply BitVec.eq_of_toNat_eq
  simp [lowByte]

/-- The high byte, as arithmetic (R76 (d)). -/
theorem highByte_eq (w : Word) : highByte w = BitVec.ofNat 8 (w.toNat / 256) := by
  apply BitVec.eq_of_toNat_eq
  simp [highByte, Nat.shiftRight_eq_div_pow]

theorem roomCapacity_eq (r : Bool) : roomCapacity r = if r = true then 1 else 0 := by cases r <;> rfl

end Sys2Proof.Machine
end

