-- ==== Sys2Proof/Laws/Frames.lean ====
section
/-!
SUPPORT. Frames on the wire: the bytes an encoder still owes in each `state` (the table of R118), and what the
decoder does with START, the bodies, END and the trailer (R52, R55).
-/

namespace Sys2Proof.Machine

open Sys2Proof.Safety

/-- END and the trailer, from the accumulator before END (R52). -/
def tailOwed (i : Instance) : List Byte :=
  0x03#8 :: (if i.config.fn.isSome = true then
    [lowByte (ckStep i.config i.computedChecksum 0x03#8), highByte (ckStep i.config i.computedChecksum 0x03#8)] else [])

/-- The instance once `l` is folded into its accumulator (R71). -/
def Instance.foldAll (i : Instance) (l : List Byte) : Instance :=
  { i with computedChecksum := l.foldl (ckStep i.config) i.computedChecksum }

/-- What `Started` owes for the payload bytes still to come. -/
def startedOwed (i : Instance) (p : List Byte) : List Byte :=
  p.flatMap body ++ tailOwed (Instance.foldAll i (p.flatMap body))

/-- What the encoder owes in each row of the table of R118. -/
def owed (i : Instance) (p : List Byte) : List Byte :=
  match i.state with
  | .idle => 0x02#8 :: startedOwed (i.fold 0x02#8 .started) p
  | .started => startedOwed i p
  | .escapeLatched =>
    match p with
    | [] => []
    | v :: p => v :: startedOwed (i.fold v .started) p
  | .checksumByte0 => [lowByte i.computedChecksum, highByte i.computedChecksum]
  | .checksumByte1 => [highByte i.computedChecksum]

/-- The escaped form (R53). -/
theorem body_marker {v} (h : isMarker v = true) : body v = [0x10#8, v] := by
  have := (isMarker_iff v).1 h
  simp [body, this]

/-- The verbatim form (R53). -/
theorem body_other {v} (h : isMarker v = false) : body v = [v] := by
  have := (isMarker_false_iff v).1 h
  simp [body, this]

theorem startedOwed_nil (i) : startedOwed i [] = tailOwed i := rfl

theorem startedOwed_other (i : Instance) (v p st) (h : isMarker v = false) : startedOwed i (v :: p) =
    v :: startedOwed (i.fold v st) p := by
  simp [startedOwed, body_other h, Instance.foldAll, Instance.fold, tailOwed]; rfl

theorem startedOwed_marker (i : Instance) (v p st st') (h : isMarker v = true) : startedOwed i (v :: p) =
    0x10#8 :: v :: startedOwed ((i.fold 0x10#8 st).fold v st') p := by
  simp [startedOwed, body_marker h, Instance.foldAll, Instance.fold, tailOwed]; rfl

/-- In contract a write puts the first byte owed and leaves the rest owed, in contract again (R118). -/
theorem owed_step {i : Instance} {p : List Byte} (h : encodeInContract i.state p) :
    ∃ e, encStep i p.head? = some e ∧ e.take ≤ p.length ∧
      ((e.status = .continue_ ∧ encodeInContract e.inst.state (p.drop e.take) ∧
          owed i p = e.byte :: owed e.inst (p.drop e.take)) ∨
       (e.status = .done ∧ owed i p = [e.byte] ∧ p = [])) := by
  cases hs : i.state with
  | idle =>
    exact ⟨_, by simp only [encStep, hs]; rfl, Nat.zero_le _, .inl ⟨rfl, by simp [encodeInContract, Instance.fold],
        by simp [owed, hs, Instance.fold]⟩⟩
  | started =>
    cases p with
    | nil =>
      cases hf : i.config.fn.isSome
      · refine ⟨_, by simp only [encStep, hs, List.head?, hf]; rfl, Nat.zero_le _, .inr ⟨rfl, ?_, rfl⟩⟩
        simp [owed, hs, startedOwed_nil, tailOwed, hf]
      · refine ⟨_, by simp only [encStep, hs, List.head?, hf]; rfl, Nat.zero_le _, .inl ⟨rfl,
          by simp [encodeInContract, Instance.fold], ?_⟩⟩
        simp [owed, hs, startedOwed_nil, tailOwed, hf, Instance.fold]
    | cons v p =>
      cases hm : isMarker v
      · refine ⟨_, by simp only [encStep, hs, List.head?, hm]; rfl, by simp, .inl ⟨rfl, by simp [encodeInContract,
          Instance.fold], ?_⟩⟩
        simp only [owed, hs]
        rw [startedOwed_other _ _ _ .started hm]; simp [Instance.fold]
      · refine ⟨_, by simp only [encStep, hs, List.head?, hm]; rfl, by simp, .inl ⟨rfl, ?_, ?_⟩⟩
        · simpa [encodeInContract, Instance.fold] using (isMarker_iff v).1 hm
        simp only [owed, hs]
        rw [startedOwed_marker _ _ _ .escapeLatched .started hm]; simp [Instance.fold]
  | escapeLatched =>
    rw [hs] at h
    obtain ⟨v, q, rfl, hv⟩ := h
    have hm := (isMarker_iff v).2 hv
    refine ⟨_, by simp only [encStep, hs, List.head?, hm]; rfl, by simp, .inl ⟨rfl, by simp [encodeInContract,
        Instance.fold], ?_⟩⟩
    simp [owed, hs, Instance.fold]
  | checksumByte0 =>
    rw [hs] at h
    cases h
    exact ⟨_, by simp only [encStep, hs, List.head?]; rfl, by simp, .inl ⟨rfl, by simp [encodeInContract],
        by simp [owed, hs]⟩⟩
  | checksumByte1 =>
    rw [hs] at h
    cases h
    exact ⟨_, by simp only [encStep, hs, List.head?]; rfl, by simp, .inr ⟨rfl, by simp [owed, hs], rfl⟩⟩

theorem owed_length {i : Instance} {p : List Byte} (h : encodeInContract i.state p) : (owed i p).length ≤ encBound
    i.state p.length := by
  generalize hn : encBound i.state p.length = n
  induction n using Nat.strongRecOn generalizing i p with
  | _ n ih =>
    obtain ⟨e, he, ht, ⟨a, b, c⟩ | ⟨a, b, c⟩⟩ := owed_step h
    · have hm := encBound_step he
      simp [a] at hm
      rw [c, List.length_cons]
      have := ih _ (by simp only [List.length_drop]; omega) b rfl
      simp only [List.length_drop] at this
      omega
    · have hm := encBound_step he
      simp [a] at hm
      rw [b]; simp; omega

/-- With enough room an in-contract run writes all it owes; with less it writes that much and still owes the rest
(R125). -/
theorem encRun_owed (k : Nat) (p : List Byte) (room : Nat) (i : Instance) (h : encodeInContract i.state p) (hk : (owed
    i p).length ≤ k) :
    ((owed i p).length ≤ room → (encRun k p room i).status = .done ∧ (encRun k p room i).out = owed i p ∧
        (encRun k p room i).consumed = p.length) ∧
    (room < (owed i p).length → (encRun k p room i).status = .overflow ∧
        (encRun k p room i).out = (owed i p).take room ∧
      encodeInContract (encRun k p room i).inst.state (p.drop (encRun k p room i).consumed) ∧
      owed (encRun k p room i).inst (p.drop (encRun k p room i).consumed) = (owed i p).drop room) := by
  induction k generalizing p room i with
  | zero =>
    obtain ⟨e, he, ht, ⟨a, b, c⟩ | ⟨a, b, c⟩⟩ := owed_step h
    · rw [c] at hk; simp at hk
    · rw [b] at hk; simp at hk
  | succ k ih =>
    obtain ⟨e, he, ht, ⟨a, b, c⟩ | ⟨a, b, c⟩⟩ := owed_step h
    · simp only [encRun, he, a]
      rw [c] at hk ⊢
      simp only [List.length_cons] at hk ⊢
      by_cases hr : room = 0
      · subst hr
        refine ⟨fun h => by omega, fun _ => ?_⟩
        simp [h, c]
      · obtain ⟨i1, i2⟩ := ih (p.drop e.take) (room - 1) e.inst b (by omega)
        simp only [hr, if_false]
        constructor
        · intro hh
          obtain ⟨j1, j2, j3⟩ := i1 (by omega)
          refine ⟨j1, by rw [j2], ?_⟩
          rw [j3]; simp; omega
        · intro hh
          obtain ⟨j1, j2, j3, j4⟩ := i2 (by omega)
          obtain ⟨room, rfl⟩ : ∃ r, room = r + 1 := ⟨room - 1, by omega⟩
          simp only [Nat.add_sub_cancel, List.drop_drop] at *
          exact ⟨j1, by rw [j2]; rfl, j3, by rw [j4]; rfl⟩
    · simp only [encRun, he, a]
      rw [b] at hk ⊢
      by_cases hr : room = 0
      · subst hr
        refine ⟨fun h => by simp at h, fun _ => ?_⟩
        simp [h, b]
      · simp only [hr, if_false]
        constructor
        · intro _; subst c; simp at ht; simp [ht]
        · intro h; simp at h; omega

/-- An in-contract run ends in `Done`, or in `Overflow` and in contract (R118, R121). -/
theorem encRun_in_contract (p : List Byte) (c : Nat) (s : State) (h : encodeInContract s.inst.state p) :
  ((encRun (2 * p.length + 4) p c s.inst).status = .done ∨
   (encRun (2 * p.length + 4) p c s.inst).status = .overflow ∧
       encodeInContract (encRun (2 * p.length + 4) p c s.inst).inst.state (p.drop (encRun (2 * p.length + 4) p c
           s.inst).consumed)) := by
  have hm := encBound_le s.inst.state p.length
  have hlen := owed_length h
  obtain ⟨r1, r2⟩ := encRun_owed (2 * p.length + 4) p c s.inst h (by omega)
  by_cases hc : (owed s.inst p).length ≤ c
  · exact .inl (r1 hc).1
  · have := r2 (by omega); exact .inr ⟨this.1, this.2.2.1⟩

/-- The accumulator of an enabled checksum (R55, R71). -/
theorem foldl_ckStep (config : CodecConfig) (f) (h : config.fn =
    some f) (l : List Byte) (a : Word) : l.foldl (ckStep config) a = foldChecksum f a l := by
  unfold foldChecksum
  induction l generalizing a with
  | nil => rfl
  | cons b l ih => simp only [List.foldl_cons]; rw [ih, ckStep_of_some h]

/-- Between frames the encoder owes `Frame(p)` (R52). -/
theorem owed_between {i : Instance} (h : BetweenFrames i) (p) : owed i p = frame i.config p := by
  obtain ⟨h1, h2⟩ := h
  simp only [owed, h1, startedOwed, frame, covered, trailer, tailOwed, Instance.foldAll, Instance.fold,
      List.cons_append, List.append_assoc]
  by_cases hn : i.config.fn = none
  · simp [hn]
  · obtain ⟨f, hf⟩ := Option.ne_none_iff_exists'.1 hn
    simp only [hf, Option.isSome_some, if_true]
    rw [ckStep_of_some hf, ckStep_of_some hf, foldl_ckStep _ _ hf]
    simp only [foldChecksum, lowByte, highByte, h2]
    simp

/-- A frame written from between frames leaves the instance as it was (R120). -/
theorem encRun_settled_done {k p c i} (h : BetweenFrames i) : (encRun k p c i).inst.settled .done = i := by
  obtain ⟨h1, h2⟩ := h
  have := encRun_config k p c i
  simp only [Instance.settled, statusIsTerminal, if_true]
  obtain ⟨t1, t2⟩ := this
  rw [t1]
  obtain ⟨a, b, c', d⟩ := i
  simp only at h1 h2 t2
  subst h1; subst h2
  simp [t2]

/-- The encoder over the payload, from `Started` (R112, R113, R114). -/
theorem encRun_bodies (p : List Byte) (k room : Nat) (i : Instance) (hi : i.state = .started) :
    encRun ((p.flatMap body).length + k) p ((p.flatMap body).length + room) i =
      let q := encRun k [] room (Instance.foldAll i (p.flatMap body))
      ⟨q.inst, p.length + q.consumed, p.flatMap body ++ q.out, q.status⟩ := by
  induction p generalizing i with
  | nil => simp [Instance.foldAll]
  | cons v p ih =>
    cases hm : isMarker v
    · rw [List.flatMap_cons, body_other hm]
      have : ((([v] ++ p.flatMap body).length + k)) = ((p.flatMap body).length + k) + 1 := by simp; omega
      rw [this]
      have : ((([v] ++ p.flatMap body).length + room)) = ((p.flatMap body).length + room) + 1 := by simp; omega
      rw [this]
      simp only [encRun, encStep, hi, List.head?, hm]
      simp only [Bool.false_eq_true, if_false, Nat.add_sub_cancel, List.drop_one, List.tail_cons]
      rw [ih _ rfl]
      simp [Instance.foldAll, Instance.fold, hi]; omega
    · rw [List.flatMap_cons, body_marker hm]
      have : ((([16#8, v] ++ p.flatMap body).length + k)) = ((p.flatMap body).length + k) + 1 + 1 := by simp; omega
      rw [this]
      have : ((([16#8, v] ++ p.flatMap body).length + room)) = ((p.flatMap body).length + room) + 1 + 1 :=
          by simp; omega
      rw [this]
      rw [encRun_cons (e := ⟨0x10#8, i.fold 0x10#8 .escapeLatched, 0, .continue_⟩) (by simp [encStep, hi, hm]) rfl]
      rw [encRun_cons (e := ⟨v, (i.fold 0x10#8 .escapeLatched).fold v .started, 1, .continue_⟩) (by simp [encStep,
          Instance.fold, hm]) rfl]
      simp only [List.drop_zero, List.drop_one, List.tail_cons]
      rw [ih _ rfl]
      simp [Instance.foldAll, Instance.fold, hi]; omega

/-- The decoder over the body forms, from `Started` (R88 to R92). -/
theorem decRun_bodies (p l : List Byte) (room : Nat) (i : Instance) (hi : i.state = .started) (hr : p.length ≤ room) :
    decRun (p.flatMap body ++ l) room i =
      let q := decRun l (room - p.length) (Instance.foldAll i (p.flatMap body))
      ⟨q.inst, (p.flatMap body).length + q.consumed, p ++ q.out, q.status⟩ := by
  induction p generalizing room i with
  | nil => simp [Instance.foldAll]
  | cons v p ih =>
    have hr0 : 0 < room := by simp at hr; omega
    cases hm : isMarker v
    · have hv := (isMarker_false_iff v).1 hm
      rw [List.flatMap_cons, body_other hm]
      simp only [List.cons_append, List.nil_append, decRun]
      have : decEffect i v (decide (0 < room)) = ⟨i.fold v .started, [v], .continue_⟩ := by
        simp [decEffect, hi, hv, emitEffect, hr0]
      rw [this]
      simp only
      rw [ih _ _ rfl (by simp at hr ⊢; omega)]
      simp [Instance.foldAll, Instance.fold, Nat.sub_sub, Nat.add_comm, hi]
      omega
    · have hv := (isMarker_iff v).1 hm
      rw [List.flatMap_cons, body_marker hm]
      simp only [List.cons_append, List.nil_append, decRun]
      have h1 : decEffect i 0x10#8 (decide (0 < room)) = ⟨i.fold 0x10#8 .escapeLatched, [], .continue_⟩ := by
        simp [decEffect, hi]
      rw [h1]
      simp only [List.length_nil, Nat.sub_zero]
      have : decEffect (i.fold 0x10#8 .escapeLatched) v (decide (0 < room)) =
          ⟨(i.fold 0x10#8 .escapeLatched).fold v .started, [v], .continue_⟩ := by
        simp [decEffect, Instance.fold, hv, emitEffect, hr0]
      rw [this]
      simp only
      rw [ih _ _ rfl (by simp at hr ⊢; omega)]
      simp [Instance.foldAll, Instance.fold, Nat.sub_sub, Nat.add_comm, hi]
      omega

/-- The decoder from START through END (R82, R87, R99). -/
theorem decRun_covered (p l : List Byte) (room : Nat) (i : Instance) (hb : BetweenFrames i) (hr : p.length ≤ room) :
    decRun (covered p ++ l) room i =
      let j := (Instance.foldAll i (covered p))
      if i.config.fn.isSome = true then
        let q := decRun l (room - p.length) { j with state := .checksumByte0 }
        ⟨q.inst, (covered p).length + q.consumed, p ++ q.out, q.status⟩
      else ⟨{ j with state := .idle }, (covered p).length, p, .done⟩ := by
  obtain ⟨h1, h2⟩ := hb
  have e1 : decEffect i 0x02#8 (decide (0 < room)) = ⟨i.fold 0x02#8 .started, [], .continue_⟩ := by simp [decEffect, h1]
  simp only [covered, List.cons_append, decRun, e1, List.append_assoc, List.length_nil, Nat.sub_zero]
  rw [decRun_bodies _ _ _ _ rfl hr]
  simp only [List.nil_append, decRun]
  have e2 : ∀ r, decEffect (Instance.foldAll (i.fold 0x02#8 .started) (p.flatMap body)) 0x03#8 r =
    if i.config.fn.isSome = true then ⟨(Instance.foldAll (i.fold 0x02#8 .started) (p.flatMap body)).fold 0x03#8
        .checksumByte0, [], .continue_⟩
    else ⟨(Instance.foldAll (i.fold 0x02#8 .started) (p.flatMap body)).fold 0x03#8 .idle, [], .done⟩ := by
    intro r; simp [decEffect, Instance.foldAll, Instance.fold]; rfl
  rw [e2]
  cases hf : i.config.fn.isSome
  · simp [Instance.foldAll, Instance.fold]
  · simp [Instance.foldAll, Instance.fold]; omega

/-- The decoder over the trailer (R94, R95). -/
theorem decRun_trailer (lo hi : Byte) (rest room) (i : Instance) (hs : i.state = .checksumByte0) :
    decRun (lo :: hi :: rest) room i = ⟨{ i with state := .idle, receivedChecksum := hi ++ lo }, 2, [],
      if hi ++ lo = i.computedChecksum then .done else .invalidChecksum⟩ := by
  have e1 : ∀ r, decEffect i lo r =
      ⟨{ i with state := .checksumByte1, receivedChecksum := withLowByte i.receivedChecksum lo }, [], .continue_⟩ := by
    intro r; simp [decEffect, hs]
  simp only [decRun, e1]
  simp only [decEffect, withHighByte_withLowByte]
  split <;> rename_i h <;> split at h <;> simp_all

theorem decodeOnce_eq (p : List Byte) (c : Nat) (s : State) :
    decodeOnce p c s = ⟨(decRun p c s.inst).consumed, (decRun p c s.inst).out, (decRun p c s.inst).status,
        decodeCall p c s⟩ := by
  unfold decodeOnce
  rw [exec_decode]
  simp only [tallyOf]
  rw [decodeCall_eq]

theorem encodeOnce_eq (p : List Byte) (c : Nat) (s : State) :
    encodeOnce p c s = ⟨(encRun (2*p.length+4) p c s.inst).consumed, (encRun (2*p.length+4) p c s.inst).out,
        (encRun (2*p.length+4) p c s.inst).status, encodeCall p c s⟩ := by
  unfold encodeOnce
  rw [exec_encode]
  simp only [tallyOf]
  rw [encodeCall_eq]

/-- A terminal status leaves the between-frames condition (R18, R172). -/
theorem settled_between (i st) (h : st = .done ∨ st = .invalidChar ∨ st =
    .invalidChecksum) : BetweenFrames (Instance.settled i st) := by
  unfold Instance.settled
  rcases h with rfl | rfl | rfl <;> simp [statusIsTerminal, BetweenFrames]

/-- The two invariants of an instance (R15, R18). -/
def Instance.Good (i : Instance) : Prop := ChecksumStatesEnabled i ∧ IdleIsFresh i

/-- A decoder run and the return after it keep them. -/
theorem decRun_good (l : List Byte) (c : Nat) (i : Instance) (h : Instance.Good i) :
    Instance.Good ((decRun l c i).inst.settled (decRun l c i).status) := by
  induction l generalizing c i with
  | nil => simpa [decRun, Instance.settled, statusIsTerminal]
  | cons b l ih =>
    have key : Instance.Good ((decEffect i b (decide (0 < c))).inst.settled (decEffect i b (decide (0 < c))).status)
        := by
      obtain ⟨h1, h2⟩ := h
      unfold decEffect emitEffect
      unfold Instance.Good ChecksumStatesEnabled IdleIsFresh at *
      cases hs : i.state <;> dsimp only <;> repeat' split
      all_goals simp_all [Instance.settled, statusIsTerminal, Instance.fold]
    simp only [decRun]
    split
    · rename_i hc
      rw [hc, Instance.settled_eq rfl] at key
      exact ih _ _ key
    · simpa [Instance.settled, statusIsTerminal]
    · exact key

/-- A write and the return after it keep them. -/
theorem encStep_good {i n e} (h : Instance.Good i) (he : encStep i n =
    some e) : Instance.Good (e.inst.settled e.status) := by
  obtain ⟨h1, h2⟩ := h
  unfold Instance.Good ChecksumStatesEnabled IdleIsFresh at *
  cases hs : i.state <;> cases n <;> simp [encStep, hs] at he <;> (try split at he) <;> (try simp at he) <;> subst he
      <;>
    simp_all [Instance.settled, statusIsTerminal, Instance.fold]

/-- An encoder run and the return after it keep them. -/
theorem encRun_good (k : Nat) (l : List Byte) (c : Nat) (i : Instance) (h : Instance.Good i) :
    Instance.Good ((encRun k l c i).inst.settled (encRun k l c i).status) := by
  induction k generalizing l c i with
  | zero => simpa [encRun, Instance.settled, statusIsTerminal]
  | succ k ih =>
    simp only [encRun]
    cases he : encStep i l.head? with
    | none => simpa [Instance.settled, statusIsTerminal]
    | some e =>
      have hg := encStep_good h he
      by_cases hr : c = 0
      · simpa [hr, Instance.settled, statusIsTerminal]
      · rcases encStep_status he with h' | ⟨h', _⟩
        · simp only [hr, h']
          rw [h', Instance.settled_eq rfl] at hg
          exact ih _ _ _ hg
        · simp only [hr, h'] at hg ⊢; exact hg

end Sys2Proof.Machine
end

