-- ==== Sys2Proof/Laws/PerInstr.lean ====
section
/-!
SUPPORT. Statements about every instruction as syntax,
    one lemma per constructor.  DecodeSound: whatever selects an instruction,
the instruction meets the operand checks of its table row (R59, R60, R65).
-/

namespace Sys2Proof.Laws.DecodeSound

/-- Whatever selects `i`, `i` is well formed. -/
def Statement (i : Instr) : Prop := ∀ f : Fetched, decodeFetched f = .ok i → i.wellFormed = true

theorem operation_sound (code : Byte) (args : Args) (i : Instr) (h : decodeOperation code args = .ok i) :
    i.wellFormed = true := by
  unfold decodeOperation at h
  by_cases h0 : code = 0#8
  · simp [h0] at h; subst h; rfl
  by_cases h1 : code = 1#8
  · simp [h1] at h; subst h; rfl
  by_cases h2 : code = 2#8
  · cases hs : statusOfCode args.status with
    | some st => simp [h2, hs] at h; subst h; rfl
    | none => simp [h2, hs] at h
  by_cases h3 : code = 3#8
  · simp [h3] at h; subst h; rfl
  by_cases h4 : code = 4#8
  · simp [h4] at h; subst h; rfl
  · simp [h0, h1, h2, h3, h4] at h

theorem wire_sound (state : CodecState) (b : Byte) : (decodeWire state b).wellFormed = true := by
  rcases classify_cases b with ⟨rfl, c⟩ | ⟨rfl, c⟩ | ⟨rfl, c⟩ | ⟨h2, h3, h16, c⟩ <;>
    cases state <;> simp_all [decodeWire, Instr.wellFormed, isMarker_false_iff]

theorem payload_sound (state : CodecState) (next : Option Byte) (i : Instr) (h : decodePayload state next = .ok i) :
    i.wellFormed = true := by
  cases next with
  | none => cases state <;> cases h <;> rfl
  | some v => cases hm : isMarker v <;> cases state <;> simp [decodePayload,
      hm] at h <;> subst h <;> simp [Instr.wellFormed, hm]

/-- Selection is sound for every instruction. -/
theorem sound (i : Instr) : Statement i := by
  rintro (⟨code, args⟩ | ⟨state, b⟩ | ⟨state, next⟩) h
  · exact operation_sound code args i h
  · cases h; exact wire_sound state b
  · exact payload_sound state next i h

theorem decIdleStart : Statement .decIdleStart := sound _

theorem decIdleEnd : Statement .decIdleEnd := sound _

theorem decIdleEsc : Statement .decIdleEsc := sound _

theorem decIdleOther (b : Byte) : Statement (.decIdleOther b) := sound _

theorem decStartedStart : Statement .decStartedStart := sound _

theorem decStartedEnd : Statement .decStartedEnd := sound _

theorem decStartedEsc : Statement .decStartedEsc := sound _

theorem decStartedOther (b : Byte) : Statement (.decStartedOther b) := sound _

theorem decEscapedStart : Statement .decEscapedStart := sound _

theorem decEscapedEnd : Statement .decEscapedEnd := sound _

theorem decEscapedEsc : Statement .decEscapedEsc := sound _

theorem decEscapedOther (b : Byte) : Statement (.decEscapedOther b) := sound _

theorem decCk0 (b : Byte) : Statement (.decCk0 b) := sound _

theorem decCk1 (b : Byte) : Statement (.decCk1 b) := sound _

theorem encOpen : Statement .encOpen := sound _

theorem encEsc : Statement .encEsc := sound _

theorem encMark (v : Byte) : Statement (.encMark v) := sound _

theorem encLit (v : Byte) : Statement (.encLit v) := sound _

theorem encClose : Statement .encClose := sound _

theorem encCk0 : Statement .encCk0 := sound _

theorem encCk1 : Statement .encCk1 := sound _

theorem init (config : CodecConfig) : Statement (.init config) := sound _

theorem reset : Statement .reset := sound _

theorem isError (status : Status) : Statement (.isError status) := sound _

theorem decode (input : List Byte) (capacity : Nat) : Statement (.decode input capacity) := sound _

theorem encode (input : List Byte) (capacity : Nat) : Statement (.encode input capacity) := sound _

end Sys2Proof.Laws.DecodeSound
end

