-- ==== Sys2Proof/Tests/Slice0.lean ====
section
/-!
SUPPORT. The model's own tests.  Expected values are the spec's: the vectors of 95_test_vectors.md sections 2 to 6 (the update
function is a table of the running values its CRC gives), the encodings of R51, R57 to R60, R65.  Witnesses of the statements'
hypotheses stand at the end.
-/

namespace Sys2Proof.Tests

open Sys2Proof.Machine Sys2Proof.Safety

/-- Running values of the CRC of 95_test_vectors.md section 1. -/
def crc : ChecksumFn where
  table := [
    (0x0C0E#16, 0x03#8, 0x0E22#16), (0x0E22#16, 0x10#8, 0x2244#16), (0x2244#16, 0x03#8, 0x44C6#16),
    (0x4904#16, 0x03#8, 0x85BF#16), (0x6E48#16, 0x10#8, 0x4904#16), (0x7B02#16, 0x03#8, 0x0310#16),
    (0x7D0D#16, 0x00#8, 0x0C0E#16), (0x7D0D#16, 0x03#8, 0x0C04#16), (0x7D0D#16, 0x10#8, 0x8C6D#16),
    (0x7D0D#16, 0x16#8, 0x8C79#16), (0x7D0D#16, 0xFF#8, 0x0E0C#16), (0x85BF#16, 0x03#8, 0x3C17#16),
    (0x8C6D#16, 0x02#8, 0x6E24#16), (0x8C6D#16, 0x03#8, 0xEE21#16), (0x8C6D#16, 0x10#8, 0x6E48#16),
    (0x8C79#16, 0x73#8, 0x7B02#16), (0xFFFF#16, 0x02#8, 0x7D0D#16)]
  unlisted := 0xDEAD#16

/-- Checksum enabled, seed 0xFFFF. -/
def withCrc : CodecConfig := { seed := 0xFFFF#16, fn := some crc }

/-- Checksum disabled, seed 0. -/
def noCheck : CodecConfig := { seed := 0x0000#16, fn := none }

/-- `[state, computed_checksum, received_checksum]` (R64), checksum enabled. -/
def on (st : CodecState) (computed received : Word) : Instance :=
  { state := st, computedChecksum := computed, receivedChecksum := received, config := withCrc }

/-- The same, checksum disabled. -/
def off (st : CodecState) : Instance :=
  { state := st, computedChecksum := 0x0000#16, receivedChecksum := 0xAAAA#16, config := noCheck }

/-- A state around an instance, in which the caller asks one thing. -/
def asking (i : Instance) (o : Offer) : State :=
  { inst := i, call := Call.none, reply := .nothing, pending := [o], draws := 0 }

/-- A state around an instance, in which the caller asks nothing. -/
def quiet (i : Instance) : State :=
  { inst := i, call := Call.none, reply := .nothing, pending := [], draws := 0 }

/-- DECODE through the command port (R58). -/
def decodeOf (input : List Byte) (capacity : Nat) : Offer :=
  .operation 3#8 { Args.zero with input := input, capacity := capacity }

/-- ENCODE through the command port (R58). -/
def encodeOf (input : List Byte) (capacity : Nat) : Offer :=
  .operation 4#8 { Args.zero with input := input, capacity := capacity }

/-- What one step tells: the reply and the instance after it. -/
def tells : Result → Option (Reply × Instance)
  | .next s => some (s.reply, s.inst)
  | .fault _ => none
  | .refused _ => none

/-- One step tells this reply and leaves this instance. -/
abbrev Tells (i : Instance) (o : Offer) (r : Reply) (j : Instance) : Prop := tells (step (asking i o)) = some (r, j)

/-! ### Well-formedness: an ill-formed term for each check -/

theorem test_wf_idle_other : Instr.wellFormed (.decIdleOther 0x02#8) = false := by decide

theorem test_wf_started_other : Instr.wellFormed (.decStartedOther 0x03#8) = false := by decide

theorem test_wf_escaped_other : Instr.wellFormed (.decEscapedOther 0x10#8) = false := by decide

theorem test_wf_mark : Instr.wellFormed (.encMark 0x41#8) = false := by decide

theorem test_wf_lit : Instr.wellFormed (.encLit 0x10#8) = false := by decide

theorem test_wf_trailer_bytes_are_not_classified :
    Instr.wellFormed (.decCk0 0x02#8) = true ∧ Instr.wellFormed (.decCk1 0x10#8) = true := by decide

/-! ### Selection: bytes and codes written out from R51, R57 to R60 -/

theorem test_decode_idle :
    decodeWire .idle 0b00000010#8 = .decIdleStart ∧ decodeWire .idle 0b00000011#8 = .decIdleEnd ∧
    decodeWire .idle 0b00010000#8 = .decIdleEsc ∧ decodeWire .idle 0b00000000#8 = .decIdleOther 0x00#8 ∧
    decodeWire .idle 0b11111111#8 = .decIdleOther 0xFF#8 := by decide

theorem test_decode_started :
    decodeWire .started 0b00000010#8 = .decStartedStart ∧ decodeWire .started 0b00000011#8 = .decStartedEnd ∧
    decodeWire .started 0b00010000#8 = .decStartedEsc ∧ decodeWire .started 0b00000100#8 = .decStartedOther 0x04#8 ∧
    decodeWire .started 0b00010001#8 = .decStartedOther 0x11#8 := by decide

theorem test_decode_escaped :
    decodeWire .escapeLatched 0b00000010#8 = .decEscapedStart ∧ decodeWire .escapeLatched 0b00000011#8 = .decEscapedEnd ∧
    decodeWire .escapeLatched 0b00010000#8 = .decEscapedEsc ∧
    decodeWire .escapeLatched 0b00010010#8 = .decEscapedOther 0x12#8 ∧
    decodeWire .escapeLatched 0b00000001#8 = .decEscapedOther 0x01#8 := by decide

theorem test_decode_checksum :
    decodeWire .checksumByte0 0b00100010#8 = .decCk0 0x22#8 ∧ decodeWire .checksumByte0 0b00000010#8 = .decCk0 0x02#8 ∧
    decodeWire .checksumByte1 0b00001110#8 = .decCk1 0x0E#8 ∧ decodeWire .checksumByte1 0b00010000#8 = .decCk1 0x10#8 := by
  decide

theorem test_decode_payload :
    decodeFetched (.payload .idle none) = .ok .encOpen ∧ decodeFetched (.payload .idle (some 0x41#8)) = .ok .encOpen ∧
    decodeFetched (.payload .started (some 0b00000010#8)) = .ok .encEsc ∧
    decodeFetched (.payload .escapeLatched (some 0b00010000#8)) = .ok (.encMark 0x10#8) ∧
    decodeFetched (.payload .started (some 0b01000001#8)) = .ok (.encLit 0x41#8) ∧
    decodeFetched (.payload .started none) = .ok .encClose ∧
    decodeFetched (.payload .checksumByte0 none) = .ok .encCk0 ∧
    decodeFetched (.payload .checksumByte1 none) = .ok .encCk1 ∧
    decodeFetched (.payload .escapeLatched none) = .error .nothingSelected :=
  ⟨rfl, rfl, rfl, rfl, rfl, rfl, rfl, rfl, rfl⟩

theorem test_decode_operations :
    decodeFetched (.operation 0b00000000#8 { Args.zero with config := withCrc }) = .ok (.init withCrc) ∧
    decodeFetched (.operation 0b00000001#8 Args.zero) = .ok .reset ∧
    decodeFetched (.operation 0b00000010#8 { Args.zero with status := 0b00000011#8 }) = .ok (.isError .invalidChar) ∧
    decodeFetched (.operation 0b00000011#8 { Args.zero with input := [0x02#8], capacity := 7 }) =
      .ok (.decode [0x02#8] 7) ∧
    decodeFetched (.operation 0b00000100#8 { Args.zero with input := [0x41#8], capacity := 9 }) =
      .ok (.encode [0x41#8] 9) ∧
    decodeFetched (.operation 0b00000101#8 Args.zero) = .error (.unknownOperation 0x05#8) :=
  ⟨rfl, rfl, rfl, rfl, rfl, rfl⟩

/-! ### Table words: fetched by the first step from reset (R65; log entry 8) -/

theorem test_fetch_reset_word :
    tells (step (State.reset.withFetchWord 8 0x01)) = some (.nothing, State.reset.inst) := by decide

theorem test_fetch_wire_word :
    tells (step (State.reset.withFetchWord 8 0x10)) = some (.counts 1 0 .invalidChar [], State.reset.inst) := by decide

theorem test_fetch_state_word :
    tells (step (State.reset.withFetchWord 16 0x0102)) = some (.counts 1 0 .invalidChar [], State.reset.inst) := by decide

/-! ### The decoder and the encoder, one call each -/

/-- 95_test_vectors.md section 3, R82. -/
theorem test_dec_idle_start :
    Tells (on .idle 0xFFFF#16 0xAAAA#16) (decodeOf [0x02#8] 0) (.counts 1 0 .continue_ []) (on .started 0x7D0D#16 0xAAAA#16) := by decide

/-- 95_test_vectors.md section 3, R83. -/
theorem test_dec_idle_end :
    Tells (on .idle 0xFFFF#16 0xAAAA#16) (decodeOf [0x03#8] 4) (.counts 1 0 .invalidChar []) (on .idle 0xFFFF#16 0xAAAA#16) := by decide

/-- 95_test_vectors.md section 3, R84. -/
theorem test_dec_idle_esc :
    Tells (on .idle 0xFFFF#16 0xAAAA#16) (decodeOf [0x10#8] 4) (.counts 1 0 .invalidChar []) (on .idle 0xFFFF#16 0xAAAA#16) := by decide

/-- 95_test_vectors.md section 3, R85. -/
theorem test_dec_idle_other :
    Tells (on .idle 0xFFFF#16 0xAAAA#16) (decodeOf [0x41#8] 4) (.counts 1 0 .invalidChar []) (on .idle 0xFFFF#16 0xAAAA#16) := by decide

/-- 95_test_vectors.md section 3, R85. -/
theorem test_dec_idle_other_no_room :
    Tells (on .idle 0xFFFF#16 0xAAAA#16) (decodeOf [0x41#8] 0) (.counts 1 0 .invalidChar []) (on .idle 0xFFFF#16 0xAAAA#16) := by decide

/-- 95_test_vectors.md section 3, R86. -/
theorem test_dec_started_start :
    Tells (on .started 0x7D0D#16 0xAAAA#16) (decodeOf [0x02#8] 4) (.counts 1 0 .invalidChar []) (on .idle 0xFFFF#16 0xAAAA#16) := by decide

/-- 95_test_vectors.md section 3, R87. -/
theorem test_dec_started_end_enabled :
    Tells (on .started 0x0C0E#16 0xAAAA#16) (decodeOf [0x03#8] 0) (.counts 1 0 .continue_ []) (on .checksumByte0 0x0E22#16 0xAAAA#16) := by decide

/-- 95_test_vectors.md section 3, R87. -/
theorem test_dec_started_end_disabled :
    Tells (off .started) (decodeOf [0x03#8] 0) (.counts 1 0 .done []) (off .idle) := by decide

/-- 95_test_vectors.md section 3, R88. -/
theorem test_dec_started_esc :
    Tells (on .started 0x7D0D#16 0xAAAA#16) (decodeOf [0x10#8] 0) (.counts 1 0 .continue_ []) (on .escapeLatched 0x8C6D#16 0xAAAA#16) := by decide

/-- 95_test_vectors.md section 3, R89. -/
theorem test_dec_started_other :
    Tells (on .started 0x7D0D#16 0xAAAA#16) (decodeOf [0xFF#8] 1) (.counts 1 1 .continue_ [0xFF#8]) (on .started 0x0E0C#16 0xAAAA#16) := by decide

/-- 95_test_vectors.md section 3, R89, R74. -/
theorem test_dec_started_other_no_room :
    Tells (on .started 0x7D0D#16 0xAAAA#16) (decodeOf [0x00#8] 0) (.counts 0 0 .overflow []) (on .started 0x7D0D#16 0xAAAA#16) := by decide

/-- 95_test_vectors.md section 3, R90. -/
theorem test_dec_escaped_start :
    Tells (on .escapeLatched 0x8C6D#16 0xAAAA#16) (decodeOf [0x02#8] 1) (.counts 1 1 .continue_ [0x02#8]) (on .started 0x6E24#16 0xAAAA#16) := by decide

/-- 95_test_vectors.md section 3, R91. -/
theorem test_dec_escaped_end :
    Tells (on .escapeLatched 0x8C6D#16 0xAAAA#16) (decodeOf [0x03#8] 1) (.counts 1 1 .continue_ [0x03#8]) (on .started 0xEE21#16 0xAAAA#16) := by decide

/-- 95_test_vectors.md section 3, R92. -/
theorem test_dec_escaped_esc :
    Tells (on .escapeLatched 0x8C6D#16 0xAAAA#16) (decodeOf [0x10#8] 1) (.counts 1 1 .continue_ [0x10#8]) (on .started 0x6E48#16 0xAAAA#16) := by decide

/-- 95_test_vectors.md section 3, R92, R74. -/
theorem test_dec_escaped_esc_no_room :
    Tells (on .escapeLatched 0x8C6D#16 0xAAAA#16) (decodeOf [0x10#8] 0) (.counts 0 0 .overflow []) (on .escapeLatched 0x8C6D#16 0xAAAA#16) := by decide

/-- 95_test_vectors.md section 3, R93, R157. -/
theorem test_dec_escaped_other :
    Tells (on .escapeLatched 0x8C6D#16 0xAAAA#16) (decodeOf [0x12#8] 0) (.counts 1 0 .invalidChar []) (on .idle 0xFFFF#16 0xAAAA#16) := by decide

/-- 95_test_vectors.md section 3, R94, D22. -/
theorem test_dec_ck0_keeps_the_high_byte :
    Tells (on .checksumByte0 0x0E22#16 0xAAAA#16) (decodeOf [0x22#8] 0) (.counts 1 0 .continue_ []) (on .checksumByte1 0x0E22#16 0xAA22#16) := by decide

/-- 95_test_vectors.md section 3, R94, R37. -/
theorem test_dec_ck0_marker_value :
    Tells (on .checksumByte0 0x0E22#16 0xAAAA#16) (decodeOf [0x02#8] 0) (.counts 1 0 .continue_ []) (on .checksumByte1 0x0E22#16 0xAA02#16) := by decide

/-- 95_test_vectors.md section 3, R95. -/
theorem test_dec_ck1_match :
    Tells (on .checksumByte1 0x0E22#16 0xAA22#16) (decodeOf [0x0E#8] 0) (.counts 1 0 .done []) (on .idle 0xFFFF#16 0x0E22#16) := by decide

/-- 95_test_vectors.md section 3, R95. -/
theorem test_dec_ck1_low_byte_differed :
    Tells (on .checksumByte1 0x0E22#16 0xAA23#16) (decodeOf [0x0E#8] 0) (.counts 1 0 .invalidChecksum []) (on .idle 0xFFFF#16 0x0E23#16) := by decide

/-- 95_test_vectors.md section 4, R111. -/
theorem test_enc_open_no_room :
    Tells (on .idle 0xFFFF#16 0xAAAA#16) (encodeOf [0x41#8] 0) (.counts 0 0 .overflow []) (on .idle 0xFFFF#16 0xAAAA#16) := by decide

/-- 95_test_vectors.md section 4, R111, R114. -/
theorem test_enc_open :
    Tells (on .idle 0xFFFF#16 0xAAAA#16) (encodeOf [0x41#8] 1) (.counts 0 1 .overflow [0x02#8]) (on .started 0x7D0D#16 0xAAAA#16) := by decide

/-- 95_test_vectors.md section 4, R114, R115. -/
theorem test_enc_lit :
    Tells (on .started 0x7D0D#16 0xAAAA#16) (encodeOf [0x00#8] 1) (.counts 1 1 .overflow [0x00#8]) (on .started 0x0C0E#16 0xAAAA#16) := by decide

/-- 95_test_vectors.md section 4, R112. -/
theorem test_enc_esc_no_room :
    Tells (on .started 0x7D0D#16 0xAAAA#16) (encodeOf [0x10#8] 0) (.counts 0 0 .overflow []) (on .started 0x7D0D#16 0xAAAA#16) := by decide

/-- 95_test_vectors.md section 4, R112, R113. -/
theorem test_enc_esc_then_mark_no_room :
    Tells (on .started 0x7D0D#16 0xAAAA#16) (encodeOf [0x10#8] 1) (.counts 0 1 .overflow [0x10#8]) (on .escapeLatched 0x8C6D#16 0xAAAA#16) := by decide

/-- 95_test_vectors.md section 4, R113, R118. -/
theorem test_enc_mark_resumes_without_escape :
    Tells (on .escapeLatched 0x8C6D#16 0xAAAA#16) (encodeOf [0x10#8] 1) (.counts 1 1 .overflow [0x10#8]) (on .started 0x6E48#16 0xAAAA#16) := by decide

/-- 95_test_vectors.md section 4, R112, R113. -/
theorem test_enc_mark_end_value :
    Tells (on .started 0x7D0D#16 0xAAAA#16) (encodeOf [0x03#8] 2) (.counts 1 2 .overflow [0x10#8, 0x03#8]) (on .started 0xEE21#16 0xAAAA#16) := by decide

/-- 95_test_vectors.md section 4, R115. -/
theorem test_enc_close :
    Tells (on .started 0x0C0E#16 0xAAAA#16) (encodeOf [] 1) (.counts 0 1 .overflow [0x03#8]) (on .checksumByte0 0x0E22#16 0xAAAA#16) := by decide

/-- 95_test_vectors.md section 4, R115. -/
theorem test_enc_close_disabled :
    Tells (off .started) (encodeOf [] 1) (.counts 0 1 .done [0x03#8]) (off .idle) := by decide

/-- 95_test_vectors.md section 4, R116. -/
theorem test_enc_ck0 :
    Tells (on .checksumByte0 0x0E22#16 0xAAAA#16) (encodeOf [] 1) (.counts 0 1 .overflow [0x22#8]) (on .checksumByte1 0x0E22#16 0xAAAA#16) := by decide

/-- 95_test_vectors.md section 4, R117. -/
theorem test_enc_ck1 :
    Tells (on .checksumByte1 0x0E22#16 0xAAAA#16) (encodeOf [] 1) (.counts 0 1 .done [0x0E#8]) (on .idle 0xFFFF#16 0xAAAA#16) := by decide

/-- 95_test_vectors.md section 4, R117. -/
theorem test_enc_ck1_no_room :
    Tells (on .checksumByte1 0x0E22#16 0xAAAA#16) (encodeOf [] 0) (.counts 0 0 .overflow []) (on .checksumByte1 0x0E22#16 0xAAAA#16) := by decide

/-- 95_test_vectors.md section 6, R37. -/
theorem test_decode_trailer_of_marker_values :
    Tells (on .idle 0xFFFF#16 0xAAAA#16) (decodeOf [0x02#8, 0x16#8, 0x73#8, 0x03#8, 0x10#8, 0x03#8] 16) (.counts 6 2 .done [0x16#8, 0x73#8]) (on .idle 0xFFFF#16 0x0310#16) := by decide

/-- 95_test_vectors.md section 3, R156. -/
theorem test_decode_stops_at_the_second_start :
    Tells (off .idle) (decodeOf [0x02#8, 0x02#8, 0x10#8, 0x12#8] 0) (.counts 2 0 .invalidChar []) (off .idle) := by decide

/-- 95_test_vectors.md section 4, R122. -/
theorem test_encode_empty_payload :
    Tells (on .idle 0xFFFF#16 0xAAAA#16) (encodeOf [] 16) (.counts 0 4 .done [0x02#8, 0x03#8, 0x04#8, 0x0C#8]) (on .idle 0xFFFF#16 0xAAAA#16) := by decide

/-- 95_test_vectors.md section 4, R124 (c). -/
theorem test_encode_out_of_contract_c :
    Tells (on .checksumByte1 0x0E22#16 0xAAAA#16) (encodeOf [0x10#8] 16) (.counts 1 4 .done [0x10#8, 0x03#8, 0xC6#8, 0x44#8]) (on .idle 0xFFFF#16 0xAAAA#16) := by decide

/-! ### Control operations -/

/-- 95_test_vectors.md section 5, R141: `received_checksum` untouched. -/
theorem test_reset :
    Tells (on .escapeLatched 0x8C6D#16 0x1234#16) (.operation 1#8 Args.zero) .nothing
      (on .idle 0xFFFF#16 0x1234#16) := by decide

/-- 95_test_vectors.md section 5, R140: everything but `received_checksum`, which is free. -/
theorem test_init :
    (match exec (.init withCrc) (quiet (off .started)) with
      | .next s => decide (s.inst.state = .idle ∧ s.inst.computedChecksum = 0xFFFF#16 ∧ s.inst.config = withCrc)
      | .fault _ => false
      | .refused _ => false) = true := by decide

/-- R142. -/
theorem test_is_error :
    ([Status.done, .continue_, .overflow, .invalidChar, .invalidChecksum].map statusIsError) =
      [false, false, false, true, true] := by decide

/-- R142, through the command port: status code 4 is `InvalidChecksum` (R57). -/
theorem test_is_error_code :
    Tells (off .started) (.operation 2#8 { Args.zero with status := 4#8 }) (.verdict true) (off .started) := by decide

/-! ### Beats (R45) -/

/-- A wire beat without room reports `Overflow` and changes nothing. -/
theorem test_beat_no_room :
    Tells (on .started 0x7D0D#16 0xAAAA#16) (.wire 0x00#8 false) (.counts 0 0 .overflow [])
      (on .started 0x7D0D#16 0xAAAA#16) := by decide

/-- A payload beat of a marker writes the ESCAPE and takes nothing. -/
theorem test_beat_escape :
    Tells (on .started 0x7D0D#16 0xAAAA#16) (.payload 0x10#8 true) (.counts 0 1 .continue_ [0x10#8])
      (on .escapeLatched 0x8C6D#16 0xAAAA#16) := by decide

/-- `in_end` in `ChecksumByte1` writes the high byte and resets within the beat. -/
theorem test_beat_last :
    Tells (on .checksumByte1 0x0E22#16 0xAAAA#16) (.sliceEnd true) (.counts 0 1 .done [0x0E#8])
      (on .idle 0xFFFF#16 0xAAAA#16) := by decide

/-! ### Witnesses: a concrete state and operands that meet each statement's hypotheses together -/

/-- A state with an open call. -/
def within (i : Instance) (input : List Byte) (capacity : Nat) : State := (quiet i).openCall input capacity

theorem test_witness_payload_map :
    (CodecState.escapeLatched ≠ .idle ∧ CodecState.escapeLatched ≠ .started) ∧
    (CodecState.checksumByte0 ≠ .idle ∧ CodecState.checksumByte0 ≠ .started) ∧
    (CodecState.checksumByte1 ≠ .idle ∧ CodecState.checksumByte1 ≠ .started) := by decide

theorem test_witness_operation_codes :
    5 ≤ (5#8 : Byte).toNat ∧ 5 ≤ (255#8 : Byte).toNat ∧ ¬ 5 ≤ (4#8 : Byte).toNat := by decide

theorem test_witness_encoded_instructions :
    Instr.wellFormed (.decIdleOther 0x00#8) = true ∧ Instr.wellFormed (.decStartedOther 0xFF#8) = true ∧
    Instr.wellFormed (.decEscapedOther 0x11#8) = true ∧ Instr.wellFormed (.encMark 0x03#8) = true ∧
    Instr.wellFormed (.encLit 0x0F#8) = true := by decide

theorem test_witness_wire_selection : decodeWire .checksumByte0 0x02#8 = decodeWire .checksumByte0 0x02#8 := rfl

theorem test_witness_illegal_bytes :
    (∃ (i : Instr) (b : Byte), i = .decIdleEnd ∧ b = 0x03#8) ∧ (∃ (i : Instr) (b : Byte), i = .decIdleEsc ∧ b = 0x10#8) ∧
    (∃ (i : Instr) (b : Byte), i = .decIdleOther b) ∧ (∃ (i : Instr) (b : Byte), i = .decStartedStart ∧ b = 0x02#8) ∧
    (∃ (i : Instr) (b : Byte), i = .decEscapedOther b) ∧
    ((quiet (off .idle)).inst.state = .idle ∧ (0x03#8 : Byte) ≠ 0x02#8) ∧
    ((quiet (off .started)).inst.state = .started ∧ (0x02#8 : Byte) = 0x02#8) ∧
    ((quiet (off .escapeLatched)).inst.state = .escapeLatched ∧
      (0x11#8 : Byte) ≠ 0x02#8 ∧ (0x11#8 : Byte) ≠ 0x03#8 ∧ (0x11#8 : Byte) ≠ 0x10#8) :=
  ⟨⟨_, _, rfl, rfl⟩, ⟨_, _, rfl, rfl⟩, ⟨_, 0x00#8, rfl⟩, ⟨_, _, rfl, rfl⟩, ⟨_, 0xFF#8, rfl⟩,
    by decide, by decide, by decide⟩

theorem test_witness_escaped_markers :
    ((Instr.decEscapedStart = .decEscapedStart ∧ (0x02#8 : Byte) = 0x02#8)) ∧
    ((Instr.decEscapedEnd = .decEscapedEnd ∧ (0x03#8 : Byte) = 0x03#8)) ∧
    ((Instr.decEscapedEsc = .decEscapedEsc ∧ (0x10#8 : Byte) = 0x10#8)) := by decide

theorem test_witness_full_output :
    (emits .encOpen = true ∧ (within (off .idle) [] 0).call.out.length = (within (off .idle) [] 0).call.capacity) ∧
    emits (.decStartedOther 0x00#8) = true ∧ emits .encCk1 = true := by decide

theorem test_witness_micro_operations :
    isMicroOperation (.decCk0 0x00#8) = true ∧ isMicroOperation .encClose = true ∧
    (within (off .started) [0x41#8] 1).call.out.length ≤ (within (off .started) [0x41#8] 1).call.capacity := by decide

theorem test_witness_received_unread : (quiet (off .checksumByte0)).inst.state ≠ .checksumByte1 := by decide

theorem test_witness_same_inst :
    isMicroOperation .reset = false ∧ isMicroOperation (.decode [] 0) = false ∧
    (quiet (off .started)).inst = (within (off .started) [0x41#8] 3).inst := by decide

theorem test_witness_bounds : ([0x02#8] : List Byte).length ≤ 1 ∧ 2 * ([0x02#8] : List Byte).length + 4 ≤ 6 := by decide

/-- Each status a DECODE can return is returned somewhere (the clauses on the status). -/
theorem test_witness_decode_statuses :
    (decodeOnce [0x02#8, 0x03#8] 0 (quiet (off .idle))).status = .done ∧
    (decodeOnce [0x02#8] 0 (quiet (off .idle))).status = .continue_ ∧
    (decodeOnce [0x41#8] 0 (quiet (off .started))).status = .overflow ∧
    (decodeOnce [0x02#8] 0 (quiet (off .started))).status = .invalidChar ∧
    (decodeOnce [0x00#8] 0 (quiet (on .checksumByte1 0x0E22#16 0xAA22#16))).status = .invalidChecksum := by decide

/-- Each status an ENCODE can return is returned somewhere. -/
theorem test_witness_encode_statuses :
    (encodeOnce [] 2 (quiet (off .idle))).status = .done ∧ (encodeOnce [] 1 (quiet (off .idle))).status = .overflow ∧
    (encodeOnce [] 0 (quiet (off .escapeLatched))).status = .continue_ := by decide

theorem test_witness_decode_stops :
    ∃ t, exec (.decode [0x03#8] 0) (quiet (off .idle)) = .next t ∧ t.reply = .counts 1 0 .invalidChar [] :=
  ⟨_, rfl, by decide⟩

/-- Two pieces, the first call without room: it overflows and its byte is supplied again. -/
theorem test_witness_decode_chunks :
    ([([0x02#8, 0x41#8], 0), ([0x03#8], 1)].map Prod.fst).flatten.length ≤ 3 ∧
    (decodeOnce [0x02#8, 0x41#8] 0 (quiet (off .idle))).status = .overflow ∧
    (feedDecode [([0x02#8, 0x41#8], 0), ([0x03#8], 1)] [] (quiet (off .idle))).status ≠ .overflow := by decide

theorem test_witness_between_frames :
    BetweenFrames (quiet (off .idle)).inst ∧ BetweenFrames (quiet (on .idle 0xFFFF#16 0xAAAA#16)).inst :=
  ⟨⟨rfl, rfl⟩, ⟨rfl, rfl⟩⟩

theorem test_witness_encode_frame :
    (frame (off .idle).config [0x41#8]).length ≤ 3 ∧ (frame (on .idle 0xFFFF#16 0xAAAA#16).config [0x00#8]).length ≤ 5 ∧
    (frame noCheck [0x41#8]).length ≤ [1, 0, 2].sum := by decide

/-- Every row of the table of R118. -/
theorem test_witness_in_contract :
    encodeInContract .idle [0x41#8] ∧ encodeInContract .started [] ∧ encodeInContract .escapeLatched [0x03#8] ∧
    encodeInContract .checksumByte0 [] ∧ encodeInContract .checksumByte1 [] :=
  ⟨trivial, trivial, ⟨_, _, rfl, by decide⟩, rfl, rfl⟩

theorem test_witness_round_trip :
    BetweenFrames (quiet (off .idle)).inst ∧ (frame noCheck [0x10#8]).length ≤ [2, 0, 2].sum ∧
    ([([0x02#8, 0x10#8], 1), ([0x10#8, 0x03#8], 1)].map Prod.fst).flatten =
      (drainEncode [2, 0, 2] [0x10#8] (quiet (off .idle))).out ∧
    (feedDecode [([0x02#8, 0x10#8], 1), ([0x10#8, 0x03#8], 1)] [] (quiet (off .idle))).status ≠ .overflow :=
  ⟨⟨rfl, rfl⟩, by decide, by decide, by decide⟩

/-- The enabled checksum of the two statements about coverage and trailer, and a trailer of each kind. -/
theorem test_witness_checksum_enabled :
    (quiet (on .idle 0xFFFF#16 0xAAAA#16)).inst.config.fn = some crc ∧ ([0x00#8] : List Byte).length ≤ 1 ∧
    (0x0E#8 : Byte) ++ (0x22#8 : Byte) = foldChecksum crc 0xFFFF#16 (covered [0x00#8]) ∧
    (0x0F#8 : Byte) ++ (0x22#8 : Byte) ≠ foldChecksum crc 0xFFFF#16 (covered [0x00#8]) := by decide

theorem test_witness_overflow_resumes :
    encodeInContract (quiet (off .started)).inst.state [0x10#8] ∧
    ∃ t, exec (.encode [0x10#8] 1) (quiet (off .started)) = .next t ∧ t.reply = .counts 0 1 .overflow [0x10#8] :=
  ⟨trivial, _, rfl, by decide⟩

theorem test_witness_latched : (quiet (off .escapeLatched)).inst.state = .escapeLatched := rfl

/-- One request of each kind, and the instruction it selects. -/
theorem test_witness_step :
    ((asking (off .idle) (decodeOf [] 0)).pending = [decodeOf [] 0] ∧
      decodeOperation 3#8 { Args.zero with input := [], capacity := 0 } = .ok (.decode [] 0)) ∧
    ((asking (off .idle) (.wire 0x02#8 false)).pending = [.wire 0x02#8 false] ∧
      decodeWire (off .idle).state 0x02#8 = .decIdleStart) ∧
    ((asking (off .started) (.payload 0x10#8 true)).pending = [.payload 0x10#8 true] ∧
      decodePayload (off .started).state (some 0x10#8) = .ok .encEsc) ∧
    ((asking (off .started) (.sliceEnd true)).pending = [.sliceEnd true] ∧
      decodePayload (off .started).state none = .ok .encClose) :=
  ⟨⟨rfl, rfl⟩, ⟨rfl, rfl⟩, ⟨rfl, rfl⟩, ⟨rfl, rfl⟩⟩

theorem test_witness_no_request : (quiet (off .started)).pending = [] := rfl

theorem test_witness_unknown_codes :
    (asking (off .idle) (.operation 5#8 Args.zero)).pending = [.operation 5#8 Args.zero] ∧
    (asking (off .idle) (.operation 2#8 { Args.zero with status := 5#8 })).pending =
      [.operation 2#8 { Args.zero with status := 5#8 }] := by decide

/-- The invariant holds somewhere else than at reset, and a step is taken from there. -/
theorem test_witness_invariant :
    Inv (asking (on .checksumByte0 0x0E22#16 0xAAAA#16) (.wire 0x22#8 true)) ∧
    ∃ t, step (asking (on .checksumByte0 0x0E22#16 0xAAAA#16) (.wire 0x22#8 true)) = .next t :=
  ⟨⟨rfl, fun h => absurd h (by decide), fun _ => rfl⟩, _, rfl⟩

end Sys2Proof.Tests
end

section
/-!
PROOFS. The scope of the model's representation of `checksum_update_fn` (R8; log entry 1).
-/

namespace Sys2Proof

/-- The table that lists the value of `F` at each of the given pairs of an accumulator and a byte. -/
def ChecksumFn.tabulate (F : Word → Byte → Word) (pairs : List (Word × Byte)) : ChecksumFn where
  table := pairs.map fun x => (x.1, x.2, F x.1 x.2)
  unlisted := 0

theorem ChecksumFn.apply_tabulate_of_mem (F : Word → Byte → Word) {pairs : List (Word × Byte)} {acc : Word} {b : Byte}
    (h : (acc, b) ∈ pairs) : (ChecksumFn.tabulate F pairs).apply acc b = F acc b := by
  rw [ChecksumFn.apply, ChecksumFn.tabulate, ChecksumFn.find_mem F pairs acc b h, Option.getD_some]

/-- Settles O56: the pairs of an accumulator and a byte are finitely many, so a table can list them all. -/
theorem everyFunctionIsATable : Obligations.EveryFunctionIsATable := fun F =>
  ⟨ChecksumFn.tabulate F (FinEnum.toList (Word × Byte)), fun acc b =>
    ChecksumFn.apply_tabulate_of_mem F (FinEnum.mem_toList (acc, b))⟩

end Sys2Proof
end

section
/-!
PROOFS. The step keeps the invariant (R11, R15, R18, R19, R172): what a step can do, and why an operation and a beat keep it.
-/

namespace Sys2Proof.Machine

open Sys2Proof.Safety

/-- The operations of R58 are the rows that are no micro-operation. -/
theorem operation_cases {i : Instr} (h : isMicroOperation i = false) :
    (∃ config, i = .init config) ∨ i = .reset ∨ (∃ st, i = .isError st) ∨
      (∃ p c, i = .decode p c) ∨ ∃ p c, i = .encode p c := by
  cases i with
  | init config => exact .inl ⟨config, rfl⟩
  | reset => exact .inr (.inl rfl)
  | isError st => exact .inr (.inr (.inl ⟨st, rfl⟩))
  | decode p c => exact .inr (.inr (.inr (.inl ⟨p, c, rfl⟩)))
  | encode p c => exact .inr (.inr (.inr (.inr ⟨p, c, rfl⟩)))
  | _ => cases h

/-- An operation code selects an operation or names none; that nothing is to do is an answer of the encoder's map (R58). -/
theorem decodeOperation_cases (code : Byte) (args : Args) :
    (∃ i, decodeOperation code args = .ok i ∧ isMicroOperation i = false) ∨
      ∃ e, decodeOperation code args = .error e ∧ e ≠ .nothingSelected := by
  unfold decodeOperation
  split
  · exact .inl ⟨_, rfl, rfl⟩
  split
  · exact .inl ⟨_, rfl, rfl⟩
  split
  · split
    · exact .inl ⟨_, rfl, rfl⟩
    · exact .inr ⟨_, rfl, nofun⟩
  split
  · exact .inl ⟨_, rfl, rfl⟩
  split
  · exact .inl ⟨_, rfl, rfl⟩
  · exact .inr ⟨_, rfl, nofun⟩

/-- A beat answers a next state only by returning its call (R45). -/
theorem Offer.settle_beat {o : Offer} {r : Result} {t : State} (h : o.settle r = .next t)
    (ho : ∀ code args, o ≠ .operation code args) : ∃ v, r = .next v ∧ t = v.returnCall := by
  cases o with
  | operation code args => exact absurd rfl (ho code args)
  | _ =>
    cases r with
    | next v => cases h; exact ⟨v, rfl, rfl⟩
    | _ => cases h

/-- Where nothing is selected, a next state is the return of the call just opened (R124 (b)). -/
theorem Offer.unselected_next {o : Offer} {e : DecodeError} {s t : State} (h : o.unselected e s = .next t) :
    e = .nothingSelected ∧ t = (o.place s).returnCall := by
  cases e with
  | nothingSelected => cases h; exact ⟨rfl, rfl⟩
  | _ => cases h

/-- The registers an ENCODE leaves. -/
theorem encodeCall_inst (p : List Byte) (c : Nat) (s : State) :
    (encodeCall p c s).inst =
      (encRun (2 * p.length + 4) p c s.inst).inst.settled (encRun (2 * p.length + 4) p c s.inst).status := by
  rw [encodeCall_eq]

theorem State.returnCall_inst_settled (s : State) : s.returnCall.inst = s.inst.settled s.call.status :=
  s.returnCall_inst

/-- A DECODE of one byte is its micro-operation and the return (R80). -/
theorem decodeCall_singleton (b : Byte) (c : Nat) (s : State) :
    decodeCall [b] c s = (decByte b (s.openCall [b] c)).returnCall := rfl

/-- What a step can do: nothing; an operation, as which a decoder beat counts (a DECODE of its one byte); or an encoder beat,
in a call `u` of its own, with the micro-operation it selects or with none (R42, R45). -/
theorem step_cases {s t : State} (h : step s = .next t) :
    t = s ∨
    (∃ i rest, isMicroOperation i = false ∧ exec i { s with pending := rest } = .next t) ∨
    ∃ u : State, u.inst = s.inst ∧ u.call.status = .continue_ ∧
      (t = u.returnCall ∨
        ∃ i v, decodePayload u.inst.state u.inputByte = .ok i ∧ exec i u = .next v ∧ t = v.returnCall) := by
  unfold step at h
  cases hp : s.pending with
  | nil =>
    rw [hp] at h
    cases h
    exact .inl rfl
  | cons o rest =>
    rw [hp] at h
    refine .inr ?_
    cases hsel : decodeFetched (o.fetched s.inst.state) with
    | ok i =>
      simp only [hsel] at h
      cases o with
      | operation code args =>
        obtain ⟨j, hj, hop⟩ | ⟨e, he, -⟩ := decodeOperation_cases code args
        · cases hj.symm.trans hsel
          exact .inl ⟨i, rest, hop, h⟩
        · cases he.symm.trans hsel
      | wire b room =>
        cases hsel
        have hwire := exec_wire b (State.openCall { s with pending := rest } [b] (roomCapacity room))
        obtain ⟨v, hv, rfl⟩ := Offer.settle_beat h fun _ _ => nofun
        cases hwire.symm.trans hv
        exact .inl ⟨.decode [b] (roomCapacity room), rest, rfl, congrArg Host.Outcome.next (decodeCall_singleton b _ _)⟩
      | payload v room =>
        obtain ⟨w, hw, rfl⟩ := Offer.settle_beat h fun _ _ => nofun
        exact .inr ⟨Offer.place (.payload v room) { s with pending := rest }, rfl, rfl, .inr ⟨i, w, hsel, hw, rfl⟩⟩
      | sliceEnd room =>
        obtain ⟨w, hw, rfl⟩ := Offer.settle_beat h fun _ _ => nofun
        exact .inr ⟨Offer.place (.sliceEnd room) { s with pending := rest }, rfl, rfl, .inr ⟨i, w, hsel, hw, rfl⟩⟩
    | error e =>
      simp only [hsel] at h
      obtain ⟨rfl, rfl⟩ := Offer.unselected_next h
      cases o with
      | operation code args =>
        obtain ⟨i, hi, -⟩ | ⟨e, he, hne⟩ := decodeOperation_cases code args
        · cases hi.symm.trans hsel
        · cases he.symm.trans hsel
          exact absurd rfl hne
      | wire b room => cases hsel
      | payload v room => exact .inr ⟨Offer.place (.payload v room) { s with pending := rest }, rfl, rfl, .inl rfl⟩
      | sliceEnd room => exact .inr ⟨Offer.place (.sliceEnd room) { s with pending := rest }, rfl, rfl, .inl rfl⟩

/-- The invariant is one condition on the call and one on the registers. -/
theorem inv_iff {s : State} : Inv s ↔ s.call = Call.none ∧ s.inst.Good :=
  ⟨fun ⟨hc, hi, hs⟩ => ⟨hc, hs, hi⟩, fun ⟨hc, hs, hi⟩ => ⟨hc, hi, hs⟩⟩

/-- Between frames the registers are good: the accumulator is at the seed and `Idle` is no checksum state. -/
theorem good_of_betweenFrames {i : Instance} (h : BetweenFrames i) : i.Good := by
  obtain ⟨hst, hck⟩ := h
  exact ⟨fun hor => by simp [hst] at hor, fun _ => hck⟩

/-- Every operation keeps the invariant (R18, R172). -/
theorem inv_exec_operation {i : Instr} {s t : State} (hi : isMicroOperation i = false) (h : exec i s = .next t)
    (hs : Inv s) : Inv t := by
  rw [inv_iff] at hs ⊢
  obtain ⟨hcall, hgood⟩ := hs
  obtain ⟨config, rfl⟩ | rfl | ⟨st, rfl⟩ | ⟨p, c, rfl⟩ | ⟨p, c, rfl⟩ := operation_cases hi
  · cases h; exact ⟨hcall, good_of_betweenFrames ⟨rfl, rfl⟩⟩
  · cases h; exact ⟨hcall, good_of_betweenFrames ⟨rfl, rfl⟩⟩
  · cases h; exact ⟨hcall, hgood⟩
  · cases h; exact ⟨rfl, decodeCall_inst p c s ▸ decRun_good p c s.inst hgood⟩
  · cases h; exact ⟨rfl, encodeCall_inst p c s ▸ encRun_good _ p c s.inst hgood⟩

/-- A call returns with the invariant if its registers, once settled, are good (R18). -/
theorem inv_returnCall {u : State} (h : (u.inst.settled u.call.status).Good) : Inv u.returnCall :=
  inv_iff.2 ⟨rfl, u.returnCall_inst_settled ▸ h⟩

/-- An encoder beat keeps the invariant: its one write leaves the registers good, or it overflows and writes nothing. -/
theorem inv_encodeBeat {u v : State} {i : Instr} (hu : u.call.status = .continue_) (hg : u.inst.Good)
    (hi : decodePayload u.inst.state u.inputByte = .ok i) (h : exec i u = .next v) : Inv v.returnCall := by
  apply inv_returnCall
  obtain ⟨hsome, hnone⟩ := exec_selected u hu
  cases he : encStep u.inst u.inputByte with
  | none => rw [hnone he] at hi; cases hi
  | some e =>
    obtain ⟨op, hop, hexec⟩ := hsome e he
    rw [hop] at hi
    cases hi
    rw [hexec] at h
    cases h
    cases hr : u.hasRoom with
    | true => simpa [State.tryStep_room hr] using encStep_good hg he
    | false => simpa [State.tryStep_full hr, Instance.settled, statusIsTerminal] using hg

end Sys2Proof.Machine

namespace Sys2Proof

open Sys2Proof.Machine

/-- Settles O53: a step is nothing, an operation or an encoder beat, and each keeps the invariant. -/
theorem stepKeepsTheInvariant : Obligations.StepKeepsTheInvariant := by
  intro s t hs h
  obtain rfl | ⟨i, rest, hi, hexec⟩ | ⟨u, hinst, hu, rfl | ⟨i, v, hi, hexec, rfl⟩⟩ := step_cases h
  · exact hs
  · exact inv_exec_operation hi hexec ⟨hs.noCall, hs.idleIsFresh, hs.checksumStates⟩
  · exact inv_returnCall (by rw [hu, Instance.settled_eq rfl, hinst]; exact (inv_iff.1 hs).2)
  · exact inv_encodeBeat hu (hinst ▸ (inv_iff.1 hs).2) hi hexec

end Sys2Proof
end

section
/-!
PROOFS. What a micro-operation can do to the state, said once (`exec_microOperation`); from it the frame of the buffers and of
`config` and `received_checksum` over all instructions (R13, R14, R21, R23, R30, R32).
-/

namespace Sys2Proof.Machine

open Sys2Proof.Safety

/-- `s` with the registers `st`, `acc` and `received`, the cursor `k` further and this status: all that a micro-operation
writes beside the output. -/
def State.written (s : State) (st : CodecState) (acc received : Word) (k : Nat) (status : Status) : State :=
  { s with
    inst := { s.inst with state := st, computedChecksum := acc, receivedChecksum := received }
    call := { s.call with consumed := s.call.consumed + k, status := status } }

/-- What a micro-operation can do: it writes registers, cursor and status, and before that one byte where there is room. -/
inductive MicroStep (s : State) (received : Word) : State → Prop
  | quiet (st acc k status) (hk : k ≤ 1) : MicroStep s received (s.written st acc received k status)
  | emit (b st acc k status) (hk : k ≤ 1) (hroom : s.call.out.length < s.call.capacity) :
      MicroStep s received ((s.append b).written st acc received k status)

/-- TryEmit before a register update is such a step, with room and without (R70, R74). -/
theorem MicroStep.emitThen (s : State) (b : Byte) {f : State → State}
    (hf : ∀ u, ∃ st acc k status, k ≤ 1 ∧ f u = u.written st acc u.inst.receivedChecksum k status) :
    MicroStep s s.inst.receivedChecksum (s.emitThen b f) := by
  rw [State.emitThen_eq]
  split
  · obtain ⟨st, acc, k, status, hk, h⟩ := hf (s.append b)
    rw [h]
    exact .emit b st acc k status hk ‹_›
  · exact .quiet s.inst.state s.inst.computedChecksum 0 .overflow (Nat.zero_le 1)

/-- An accepted or rejected byte is such a step (R77, R96). -/
theorem MicroStep.accept (s : State) (st : CodecState) (b : Byte) (status : Status) :
    MicroStep s s.inst.receivedChecksum ((s.setState st).accept b status) :=
  .quiet st (ckStep s.inst.config s.inst.computedChecksum b) 1 status le_rfl

theorem MicroStep.reject (s : State) (b : Byte) : MicroStep s s.inst.receivedChecksum (s.reject b) :=
  .accept s s.inst.state b .invalidChar

theorem MicroStep.unescape (s : State) (b : Byte) : MicroStep s s.inst.receivedChecksum (s.unescape b) :=
  .emitThen s b fun _ => ⟨_, _, 1, _, le_rfl, rfl⟩

theorem MicroStep.decStartedEnd (s : State) : MicroStep s s.inst.receivedChecksum (decStartedEnd s) := by
  unfold Machine.decStartedEnd
  split
  · exact .accept s .checksumByte0 endByte .continue_
  · exact .accept s .idle endByte .done

theorem MicroStep.encClose (s : State) : MicroStep s s.inst.receivedChecksum (encClose s) := by
  refine .emitThen s endByte fun u => ?_
  unfold State.afterEnd
  split
  · exact ⟨_, _, 0, _, Nat.zero_le 1, rfl⟩
  · exact ⟨_, _, 0, _, Nat.zero_le 1, rfl⟩

/-- Every micro-operation is such a step, and only DEC.CK0 and DEC.CK1 put another word in `received_checksum`
(R13, R82 to R95, R111 to R117). -/
theorem exec_microOperation {i : Instr} (s : State) (h : isMicroOperation i = true) :
    ∃ t received, exec i s = .next t ∧ MicroStep s received t ∧
      (received = s.inst.receivedChecksum ∨ (∃ b, i = .decCk0 b) ∨ ∃ b, i = .decCk1 b) := by
  cases i with
  | decIdleStart => exact ⟨_, _, rfl, .accept s .started startByte .continue_, .inl rfl⟩
  | decIdleEnd => exact ⟨_, _, rfl, .reject s endByte, .inl rfl⟩
  | decIdleEsc => exact ⟨_, _, rfl, .reject s escapeByte, .inl rfl⟩
  | decIdleOther b => exact ⟨_, _, rfl, .reject s b, .inl rfl⟩
  | decStartedStart => exact ⟨_, _, rfl, .reject s startByte, .inl rfl⟩
  | decStartedEnd => exact ⟨_, _, rfl, .decStartedEnd s, .inl rfl⟩
  | decStartedEsc => exact ⟨_, _, rfl, .accept s .escapeLatched escapeByte .continue_, .inl rfl⟩
  | decStartedOther b => exact ⟨_, _, rfl, .emitThen s b fun _ => ⟨_, _, 1, _, le_rfl, rfl⟩, .inl rfl⟩
  | decEscapedStart => exact ⟨_, _, rfl, .unescape s startByte, .inl rfl⟩
  | decEscapedEnd => exact ⟨_, _, rfl, .unescape s endByte, .inl rfl⟩
  | decEscapedEsc => exact ⟨_, _, rfl, .unescape s escapeByte, .inl rfl⟩
  | decEscapedOther b => exact ⟨_, _, rfl, .reject s b, .inl rfl⟩
  | decCk0 b => exact ⟨_, _, rfl, .quiet .checksumByte1 _ 1 _ le_rfl, .inr (.inl ⟨b, rfl⟩)⟩
  | decCk1 b => exact ⟨_, _, rfl, .quiet .idle _ 1 _ le_rfl, .inr (.inr ⟨b, rfl⟩)⟩
  | encOpen => exact ⟨_, _, rfl, .emitThen s _ fun _ => ⟨_, _, 0, _, Nat.zero_le 1, rfl⟩, .inl rfl⟩
  | encEsc => exact ⟨_, _, rfl, .emitThen s _ fun _ => ⟨_, _, 0, _, Nat.zero_le 1, rfl⟩, .inl rfl⟩
  | encMark v => exact ⟨_, _, rfl, .emitThen s v fun _ => ⟨_, _, 1, _, le_rfl, rfl⟩, .inl rfl⟩
  | encLit v => exact ⟨_, _, rfl, .emitThen s v fun _ => ⟨_, _, 1, _, le_rfl, rfl⟩, .inl rfl⟩
  | encClose => exact ⟨_, _, rfl, .encClose s, .inl rfl⟩
  | encCk0 => exact ⟨_, _, rfl, .emitThen s _ fun _ => ⟨_, _, 0, _, Nat.zero_le 1, rfl⟩, .inl rfl⟩
  | encCk1 => exact ⟨_, _, rfl, .emitThen s _ fun _ => ⟨_, _, 0, _, Nat.zero_le 1, rfl⟩, .inl rfl⟩
  | _ => cases h

theorem MicroStep.config_pending_draws {s t : State} {received : Word} (h : MicroStep s received t) :
    t.inst.config = s.inst.config ∧ t.pending = s.pending ∧ t.draws = s.draws := by
  cases h <;> exact ⟨rfl, rfl, rfl⟩

theorem MicroStep.received {s t : State} {received : Word} (h : MicroStep s received t) :
    t.inst.receivedChecksum = received := by
  cases h <;> rfl

theorem decodeCall_config (p : List Byte) (c : Nat) (s : State) :
    (decodeCall p c s).inst.config = s.inst.config := by
  rw [decodeCall_inst, Instance.settled_config, decRun_config]

theorem encodeCall_config (p : List Byte) (c : Nat) (s : State) :
    (encodeCall p c s).inst.config = s.inst.config := by
  rw [encodeCall_inst, Instance.settled_config, (encRun_config _ _ _ _).1]

theorem encodeCall_received (p : List Byte) (c : Nat) (s : State) :
    (encodeCall p c s).inst.receivedChecksum = s.inst.receivedChecksum := by
  rw [encodeCall_inst, Instance.settled_received, (encRun_config _ _ _ _).2]

theorem decodeCall_pending_draws (p : List Byte) (c : Nat) (s : State) :
    (decodeCall p c s).pending = s.pending ∧ (decodeCall p c s).draws = s.draws := by
  rw [decodeCall_eq]
  exact ⟨rfl, rfl⟩

theorem encodeCall_pending_draws (p : List Byte) (c : Nat) (s : State) :
    (encodeCall p c s).pending = s.pending ∧ (encodeCall p c s).draws = s.draws := by
  rw [encodeCall_eq]
  exact ⟨rfl, rfl⟩

end Sys2Proof.Machine

namespace Sys2Proof

open Sys2Proof.Machine Sys2Proof.Safety

/-- Settles O23: a micro-operation writes registers, cursor and status, and one byte only where there is room. -/
theorem microOpsAppendAndAdvanceByOne : Obligations.MicroOpsAppendAndAdvanceByOne := by
  intro i s hi
  obtain ⟨t, received, hexec, hstep, -⟩ := exec_microOperation s hi
  cases hstep with
  | quiet st acc k status hk =>
    exact ⟨_, [], hexec, rfl, rfl, Nat.le_add_right _ k, Nat.add_le_add_left hk _, (List.append_nil _).symm,
      Nat.zero_le 1, id, rfl⟩
  | emit b st acc k status hk hroom =>
    refine ⟨_, [b], hexec, rfl, rfl, Nat.le_add_right _ k, Nat.add_le_add_left hk _, rfl, le_rfl, fun _ => ?_, rfl⟩
    simpa [State.written] using hroom

/-- Settles O28: a micro-operation, a reset and a run of the decoder or encoder leave `config` as it was. -/
theorem onlyInitWritesConfig : Obligations.OnlyInitWritesConfig := by
  intro i s
  cases hi : isMicroOperation i with
  | true =>
    obtain ⟨t, received, hexec, hstep, -⟩ := exec_microOperation s hi
    obtain ⟨hconfig, hpending, hdraws⟩ := hstep.config_pending_draws
    exact ⟨t, hexec, hpending, .inl ⟨hconfig, hdraws⟩⟩
  | false =>
    obtain ⟨config, rfl⟩ | rfl | ⟨st, rfl⟩ | ⟨p, c, rfl⟩ | ⟨p, c, rfl⟩ := operation_cases hi
    · exact ⟨_, rfl, rfl, .inr ⟨config, rfl, rfl⟩⟩
    · exact ⟨_, rfl, rfl, .inl ⟨rfl, rfl⟩⟩
    · exact ⟨_, rfl, rfl, .inl ⟨rfl, rfl⟩⟩
    · obtain ⟨hpending, hdraws⟩ := decodeCall_pending_draws p c s
      exact ⟨_, exec_decode p c s, hpending, .inl ⟨decodeCall_config p c s, hdraws⟩⟩
    · obtain ⟨hpending, hdraws⟩ := encodeCall_pending_draws p c s
      exact ⟨_, exec_encode p c s, hpending, .inl ⟨encodeCall_config p c s, hdraws⟩⟩

/-- Settles O29: of the micro-operations only the two of the trailer store a received byte, and of the operations neither a
reset nor an ENCODE. -/
theorem onlyTheDecoderWritesReceived : Obligations.OnlyTheDecoderWritesReceived := by
  intro i s
  cases hi : isMicroOperation i with
  | true =>
    obtain ⟨t, received, hexec, hstep, hsame | hck0 | hck1⟩ := exec_microOperation s hi
    · exact ⟨t, hexec, .inl (hstep.received.trans hsame)⟩
    · exact ⟨t, hexec, .inr (.inl hck0)⟩
    · exact ⟨t, hexec, .inr (.inr (.inl hck1))⟩
  | false =>
    obtain ⟨config, rfl⟩ | rfl | ⟨st, rfl⟩ | ⟨p, c, rfl⟩ | ⟨p, c, rfl⟩ := operation_cases hi
    · exact ⟨_, rfl, .inr (.inr (.inr (.inr ⟨config, rfl⟩)))⟩
    · exact ⟨_, rfl, .inl rfl⟩
    · exact ⟨_, rfl, .inl rfl⟩
    · exact ⟨_, rfl, .inr (.inr (.inr (.inl ⟨p, c, rfl⟩)))⟩
    · exact ⟨_, exec_encode p c s, .inl (encodeCall_received p c s)⟩

end Sys2Proof
end

section
/-!
PROOFS. What a whole call depends on and what its return leaves: the registers and the arguments alone (R16), the old content
of `received_checksum` only from `ChecksumByte1` on (R13), the between-frames condition after a terminal status (R18, R172).
-/

namespace Sys2Proof.Machine

open Sys2Proof.Safety

/-- Two codecs a decoder cannot tell apart: they differ at most in `received_checksum`, and in its low byte only before
DEC.CK0 has stored that byte (R13, R94). -/
structure Instance.SameToDecoder (i j : Instance) : Prop where
  state : i.state = j.state
  computed : i.computedChecksum = j.computedChecksum
  config : i.config = j.config
  lowByte : i.state = .checksumByte1 → lowByte i.receivedChecksum = lowByte j.receivedChecksum

/-- Two effects with the same output and status that leave such codecs. -/
structure ByteEffect.SameToDecoder (e f : ByteEffect) : Prop where
  inst : e.inst.SameToDecoder f.inst
  out : e.out = f.out
  status : e.status = f.status

theorem Instance.SameToDecoder.fold {i j : Instance} (h : i.SameToDecoder j) (b : Byte) {st : CodecState}
    (hst : st ≠ .checksumByte1) : (i.fold b st).SameToDecoder (j.fold b st) :=
  ⟨rfl, by simp only [Instance.fold, h.config, h.computed], h.config, fun h1 => absurd h1 hst⟩

/-- A byte that emits its value, or finds no room, reads no `received_checksum` (R89 to R92). -/
theorem emitEffect_sameToDecoder {i j : Instance} (h : i.SameToDecoder j) (b : Byte) (room : Bool) :
    (emitEffect i b room).SameToDecoder (emitEffect j b room) := by
  cases room with
  | true => exact ⟨h.fold b nofun, rfl, rfl⟩
  | false => exact ⟨h, rfl, rfl⟩

/-- DecByte emits and answers the same from both, and leaves them alike: the high byte is overwritten by DEC.CK1 before it
compares (R94, R95). -/
theorem decEffect_sameToDecoder {i j : Instance} (h : i.SameToDecoder j) (b : Byte) (room : Bool) :
    (decEffect i b room).SameToDecoder (decEffect j b room) := by
  unfold decEffect
  rw [← h.state, ← h.config]
  cases hst : i.state with
  | idle =>
    dsimp only
    split <;> exact ⟨h.fold b nofun, rfl, rfl⟩
  | started =>
    dsimp only
    split
    · exact ⟨h.fold b nofun, rfl, rfl⟩
    split
    · split <;> exact ⟨h.fold b nofun, rfl, rfl⟩
    split
    · exact ⟨h.fold b nofun, rfl, rfl⟩
    · exact emitEffect_sameToDecoder h b room
  | escapeLatched =>
    dsimp only
    split
    · exact emitEffect_sameToDecoder h b room
    · exact ⟨h.fold b nofun, rfl, rfl⟩
  | checksumByte0 =>
    exact ⟨⟨rfl, h.computed, rfl, fun _ => by simp only [lowByte_withLowByte]⟩, rfl, rfl⟩
  | checksumByte1 =>
    have hword : withHighByte i.receivedChecksum b = withHighByte j.receivedChecksum b :=
      congrArg (b ++ ·) (h.lowByte hst)
    exact ⟨⟨rfl, h.computed, rfl, nofun⟩, rfl, by simp only [hword, h.computed]⟩

theorem decRun_sameToDecoder {i j : Instance} (h : i.SameToDecoder j) (l : List Byte) (c : Nat) :
    (decRun l c i).inst.SameToDecoder (decRun l c j).inst ∧ (decRun l c i).consumed = (decRun l c j).consumed ∧
      (decRun l c i).out = (decRun l c j).out ∧ (decRun l c i).status = (decRun l c j).status := by
  induction l generalizing c i j with
  | nil => exact ⟨h, rfl, rfl, rfl⟩
  | cons b l ih =>
    obtain ⟨hinst, hout, hstatus⟩ := decEffect_sameToDecoder h b (decide (0 < c))
    obtain ⟨rinst, rconsumed, rout, rstatus⟩ := ih hinst (c - (decEffect j b (decide (0 < c))).out.length)
    simp only [decRun, hout, hstatus]
    split
    · exact ⟨rinst, by rw [rconsumed], by rw [rout], rstatus⟩
    · exact ⟨h, rfl, rfl, rfl⟩
    · exact ⟨hinst, rfl, rfl, rfl⟩

theorem Instance.SameToDecoder.settled {i j : Instance} (h : i.SameToDecoder j) (st : Status) :
    (i.settled st).SameToDecoder (j.settled st) := by
  unfold Instance.settled
  split
  · exact ⟨rfl, congrArg CodecConfig.seed h.config, h.config, nofun⟩
  · exact h

/-- The codec with another word in `received_checksum`. -/
def Instance.withReceived (i : Instance) (w : Word) : Instance := { i with receivedChecksum := w }

theorem Instance.settled_withReceived (i : Instance) (w : Word) (st : Status) :
    (i.withReceived w).settled st = (i.settled st).withReceived w := by
  unfold Instance.settled
  split <;> rfl

/-- A write of the encoder carries `received_checksum` along unread (R13). -/
theorem encStep_withReceived (i : Instance) (w : Word) (n : Option Byte) :
    encStep (i.withReceived w) n = (encStep i n).map fun e => { e with inst := e.inst.withReceived w } := by
  obtain ⟨st, acc, received, seed, fn⟩ := i
  cases st with
  | idle => rfl
  | started =>
    cases n with
    | none => cases fn <;> rfl
    | some v =>
      simp only [encStep, Instance.withReceived]
      split <;> rfl
  | _ => cases n <;> rfl

theorem encRun_withReceived (k : Nat) (p : List Byte) (c : Nat) (i : Instance) (w : Word) :
    encRun k p c (i.withReceived w) = { encRun k p c i with inst := (encRun k p c i).inst.withReceived w } := by
  induction k generalizing p c i with
  | zero => rfl
  | succ k ih =>
    simp only [encRun, encStep_withReceived]
    cases he : encStep i p.head? with
    | none => rfl
    | some e =>
      simp only [Option.map_some]
      split
      · rfl
      cases hst : e.status with
      | continue_ => simp only [ih]
      | _ => rfl

theorem encodeCall_withReceived (p : List Byte) (c : Nat) (s : State) (w : Word) :
    encodeCall p c { s with inst := s.inst.withReceived w } =
      { encodeCall p c s with inst := (encodeCall p c s).inst.withReceived w } := by
  simp only [encodeCall_eq, encRun_withReceived, Instance.settled_withReceived]

theorem resetCall_inst (s : State) :
    (resetCall s).inst = { s.inst with state := .idle, computedChecksum := s.inst.config.seed } := rfl

/-- RESET, IS_ERROR, DECODE and ENCODE leave registers and a reply that the registers and the arguments determine (R16). -/
theorem exec_operation_congr {i : Instr} {s s' : State} (hi : isMicroOperation i = false)
    (hinit : ¬ ∃ config, i = .init config) (h : s.inst = s'.inst) :
    ∃ t t', exec i s = .next t ∧ exec i s' = .next t' ∧ t.inst = t'.inst ∧ t.reply = t'.reply := by
  obtain hconfig | rfl | ⟨st, rfl⟩ | ⟨p, c, rfl⟩ | ⟨p, c, rfl⟩ := operation_cases hi
  · exact absurd hconfig hinit
  · exact ⟨_, _, rfl, rfl, by rw [resetCall_inst, resetCall_inst, h], rfl⟩
  · exact ⟨_, _, rfl, rfl, h, rfl⟩
  · exact ⟨_, _, exec_decode p c s, exec_decode p c s', by simp only [decodeCall_eq, h, and_self]⟩
  · exact ⟨_, _, exec_encode p c s, exec_encode p c s', by simp only [encodeCall_eq, h, and_self]⟩

end Sys2Proof.Machine

namespace Sys2Proof

open Sys2Proof.Machine Sys2Proof.Safety

/-- Settles O30: two decoders whose words differ, but not in a low byte already stored, run alike; the encoder carries the
word along unread. -/
theorem receivedIsReadOnlyWhenWritten : Obligations.ReceivedIsReadOnlyWhenWritten := by
  refine ⟨fun s w p c hst => ?_, fun s w p c => ⟨_, exec_encode p c s, ?_⟩⟩
  · have hsame : s.inst.SameToDecoder (s.inst.withReceived w) := ⟨rfl, rfl, rfl, fun h => absurd h hst⟩
    obtain ⟨hinst, hconsumed, hout, hstatus⟩ := decRun_sameToDecoder hsame p c
    obtain ⟨hstate, hcomputed, hconfig, -⟩ := hinst.settled (decRun p c s.inst).status
    refine ⟨_, _, exec_decode p c s, exec_decode p c { s with inst := s.inst.withReceived w }, ?_⟩
    simp only [decodeCall_eq]
    rw [← hstatus, ← hconsumed, ← hout]
    exact ⟨rfl, hstate, hcomputed, hconfig⟩
  · exact congrArg Host.Outcome.next (encodeCall_withReceived p c s w)

/-- Settles O31: INIT writes what its argument says, and the other operations depend on the registers alone. -/
theorem resultsDependOnTheInstanceOnly : Obligations.ResultsDependOnTheInstanceOnly := by
  intro i s s' hi hinst
  by_cases hinit : ∃ config, i = .init config
  · obtain ⟨config, rfl⟩ := hinit
    exact ⟨_, _, rfl, rfl, rfl, rfl, rfl, fun h => absurd rfl (h config)⟩
  · obtain ⟨t, t', ht, ht', heq, hreply⟩ := exec_operation_congr hi hinit hinst
    exact ⟨t, t', ht, ht', by rw [heq], by rw [heq], by rw [heq], fun _ => ⟨heq, hreply⟩⟩

/-- Settles O37: both calls leave the settled registers of their run, with the run's own status in the reply. -/
theorem terminalStatusResets : Obligations.TerminalStatusResets := by
  rintro i p c s (rfl | rfl)
  · refine ⟨_, _, _, _, exec_decode p c s, by rw [decodeCall_eq], rfl, fun h => ?_⟩
    rw [decodeCall_inst]
    exact settled_between _ _ h
  · refine ⟨_, _, _, _, exec_encode p c s, by rw [encodeCall_eq], rfl, fun h => ?_⟩
    rw [encodeCall_inst]
    exact settled_between _ _ h

end Sys2Proof
end

section
/-!
PROOFS. What a step answers to each kind of request: nothing, an operation or a beat (R42, R45, R58 to R60).
-/

namespace Sys2Proof.Machine

open Sys2Proof.Safety

/-- Every instruction answers a next state (R143). -/
theorem exec_next (i : Instr) (s : State) : ∃ t, exec i s = .next t := by
  cases hi : isMicroOperation i with
  | true =>
    obtain ⟨t, -, ht, -⟩ := exec_microOperation s hi
    exact ⟨t, ht⟩
  | false =>
    obtain ⟨config, rfl⟩ | rfl | ⟨st, rfl⟩ | ⟨p, c, rfl⟩ | ⟨p, c, rfl⟩ := operation_cases hi <;> exact ⟨_, rfl⟩

theorem step_of_no_request {s : State} (h : s.pending = []) : step s = .next s := by
  rw [step, h]

/-- A step runs the instruction its first request selects, with that request removed (R42). -/
theorem step_of_selected {s : State} {o : Offer} {rest : List Offer} {i : Instr} (hp : s.pending = o :: rest)
    (hi : decodeFetched (o.fetched s.inst.state) = .ok i) :
    step s = o.settle (exec i (o.place { s with pending := rest })) := by
  simp only [step, hp, hi]

/-- The next state of a beat's instruction is answered with its call returned (R45). -/
theorem Offer.settle_beat_next {o : Offer} (ho : ∀ code args, o ≠ .operation code args) (t : State) :
    o.settle (.next t) = .next t.returnCall := by
  cases o with
  | operation code args => exact absurd rfl (ho code args)
  | _ => rfl

/-- A beat runs the instruction it selects in the call it opens and returns that call (R45). -/
theorem step_of_beat {s : State} {o : Offer} {rest : List Offer} {i : Instr} (hp : s.pending = o :: rest)
    (ho : ∀ code args, o ≠ .operation code args) (hi : decodeFetched (o.fetched s.inst.state) = .ok i) :
    ∃ t, exec i (o.place { s with pending := rest }) = .next t ∧ step s = .next t.returnCall := by
  obtain ⟨t, ht⟩ := exec_next i (o.place { s with pending := rest })
  exact ⟨t, ht, by rw [step_of_selected hp hi, ht, Offer.settle_beat_next ho]⟩

end Sys2Proof.Machine

namespace Sys2Proof

open Sys2Proof.Machine

/-- Settles O52: the beat's micro-operation is DecByte in the call of that one byte, and so is the one pass of DECODE. -/
theorem wireBeatIsOneByteDecode : Obligations.WireBeatIsOneByteDecode := by
  intro s b room rest hp
  have hbeat := exec_wire b (State.openCall { s with pending := rest } [b] (roomCapacity room))
  obtain ⟨t, ht, hstep⟩ := step_of_beat hp (fun _ _ => nofun) rfl
  cases ht.symm.trans hbeat
  rw [hstep, exec_decode, ← roomCapacity_eq, decodeCall_singleton]

/-- Settles O49: an operation is answered as it stands, a beat by its instruction in a call of its own. -/
theorem stepRunsTheDecodedInstruction : Obligations.StepRunsTheDecodedInstruction := by
  intro s rest i
  simp only [← roomCapacity_eq]
  refine ⟨fun code args hp hi => step_of_selected hp hi, fun b room hp hi => ?_, fun v room hp hi => ?_,
    fun room hp hi => ?_⟩
  · exact step_of_beat hp (fun _ _ => nofun) (congrArg Except.ok hi)
  · exact step_of_beat hp (fun _ _ => nofun) hi
  · exact step_of_beat hp (fun _ _ => nofun) hi

/-- Settles O50: the step looks at the first request, and there is none. -/
theorem stepWithoutARequest : Obligations.StepWithoutARequest := fun _ => step_of_no_request

end Sys2Proof
end

section
/-!
PROOFS. What the maps of R58, R59 and R60 select: `encodeInstr` takes the decoder map back, the encoder map asks whether
the byte is a marker, and codes from 5 up select nothing; which cells are illegal (R61).
-/

namespace Sys2Proof.Machine

/-- A step whose first request selects nothing answers what that request answers unselected (R58, R124 (b)). -/
theorem step_of_unselected {s : State} {o : Offer} {rest : List Offer} {e : DecodeError} (hp : s.pending = o :: rest)
    (he : decodeFetched (o.fetched s.inst.state) = .error e) :
    step s = o.unselected e { s with pending := rest } := by
  simp only [step, hp, he]

end Sys2Proof.Machine

namespace Sys2Proof

open Sys2Proof.Machine

/-- Encoding takes the decoder map back: `state` and byte of a selected row can be read off it (R59). -/
theorem encodeInstr_decodeWire (st : CodecState) (b : Byte) : encodeInstr (decodeWire st b) = .wire st b := by
  rcases classify_cases b with ⟨rfl, -⟩ | ⟨rfl, -⟩ | ⟨rfl, -⟩ | ⟨-, -, -, c⟩
  · cases st <;> rfl
  · cases st <;> rfl
  · cases st <;> rfl
  · cases st <;> simp [decodeWire, c, encodeInstr]

theorem decodePayload_started_some (v : Byte) :
    decodePayload .started (some v) = if isMarker v = true then .ok .encEsc else .ok (.encLit v) := by
  cases hm : isMarker v <;> simp [decodePayload, hm]

/-- Past `Started` a marker is written without an ESCAPE of its own (R60). -/
theorem decodePayload_some_of_ne {st : CodecState} (hi : st ≠ .idle) (hs : st ≠ .started) (v : Byte) :
    decodePayload st (some v) = if isMarker v = true then .ok (.encMark v) else .ok (.encLit v) := by
  cases st with
  | idle => exact absurd rfl hi
  | started => exact absurd rfl hs
  | _ => cases hm : isMarker v <;> simp [decodePayload, hm]

theorem decodeOperation_statusCode (args : Args) (st : Status) :
    decodeOperation 2#8 { args with status := statusCode st } = .ok (.isError st) := by
  simp [decodeOperation]

/-- A code from 5 up is none of the five codes of R57 and R58. -/
theorem ne_code_of_five_le {c : Byte} (h : 5 ≤ c.toNat) : c ≠ 0#8 ∧ c ≠ 1#8 ∧ c ≠ 2#8 ∧ c ≠ 3#8 ∧ c ≠ 4#8 := by
  refine ⟨?_, ?_, ?_, ?_, ?_⟩ <;> rintro rfl <;> exact absurd h (by decide)

theorem statusOfCode_eq_none {c : Byte} (h : 5 ≤ c.toNat) : statusOfCode c = none := by
  simp [statusOfCode, ne_code_of_five_le h]

theorem decodeOperation_unknownStatus {args : Args} (h : 5 ≤ args.status.toNat) :
    decodeOperation 2#8 args = .error (.unknownStatus args.status) := by
  simp [decodeOperation, statusOfCode_eq_none h]

theorem decodeOperation_unknownOperation {code : Byte} (h : 5 ≤ code.toNat) (args : Args) :
    decodeOperation code args = .error (.unknownOperation code) := by
  simp [decodeOperation, ne_code_of_five_le h]

/-- Settles O5: a row without an operand check is computed; the `OTHER` rows, ENC.MARK and ENC.LIT need theirs, IS_ERROR that
its status is read back from its code. -/
theorem encodedInstructionsDecodeBack : Obligations.EncodedInstructionsDecodeBack := by
  intro i hw
  cases i with
  | decIdleOther b | decStartedOther b | decEscapedOther b =>
    have hc : classify b = .other := (classify_other_iff b).2 (by simpa [Instr.wellFormed] using hw)
    simp [encodeInstr, decodeFetched, decodeWire, hc]
  | encMark v =>
    have hm : isMarker v = true := hw
    simp [encodeInstr, decodeFetched, decodePayload_some_of_ne, hm]
  | encLit v =>
    have hm : isMarker v = false := by simpa [Instr.wellFormed] using hw
    simp [encodeInstr, decodeFetched, decodePayload_started_some, hm]
  | isError st => exact decodeOperation_statusCode Args.zero st
  | _ => rfl

/-- Settles O6: the selected row encodes back to the pair it was selected from. -/
theorem wireSelectionDropsNoBit : Obligations.WireSelectionDropsNoBit := by
  intro st st' b b' h
  have hwire := congrArg encodeInstr h
  rw [encodeInstr_decodeWire, encodeInstr_decodeWire] at hwire
  exact Fetched.wire.inj hwire

/-- Settles O1: the class of the byte decides in the first three states, and nothing in the two of the trailer. -/
theorem wireMapSelectsOneRow : Obligations.WireMapSelectsOneRow := by
  intro b
  rcases classify_cases b with ⟨rfl, -⟩ | ⟨rfl, -⟩ | ⟨rfl, -⟩ | ⟨h2, h3, h16, c⟩
  · exact ⟨rfl, rfl, rfl, rfl, rfl⟩
  · exact ⟨rfl, rfl, rfl, rfl, rfl⟩
  · exact ⟨rfl, rfl, rfl, rfl, rfl⟩
  · simp [decodeWire, c, h2, h3, h16]

/-- Settles O2: with a payload byte the map asks whether it is a marker, without one the state alone decides. -/
theorem payloadMapSelectsOneRow : Obligations.PayloadMapSelectsOneRow := by
  simp only [Obligations.PayloadMapSelectsOneRow, ← isMarker_iff]
  exact ⟨fun _ => rfl, decodePayload_started_some, fun _ v hi hs => decodePayload_some_of_ne hi hs v,
    rfl, rfl, rfl, rfl⟩

/-- Settles O3: the five codes are computed, IS_ERROR reads its status back, and a code from 5 up is none of them. -/
theorem operationCodesSelect : Obligations.OperationCodesSelect :=
  ⟨fun _ => rfl, fun _ => rfl, decodeOperation_statusCode, fun _ => decodeOperation_unknownStatus, fun _ => rfl,
    fun _ => rfl, fun _ args h => decodeOperation_unknownOperation h args⟩

/-- Settles O4: each word is a literal, and reading it is a computation. -/
theorem tableWordsDecode : Obligations.TableWordsDecode := by
  unfold Obligations.TableWordsDecode
  decide

/-- Settles O51: such a code selects nothing, and the step refuses it by its name. -/
theorem unknownCodesAreRejected : Obligations.UnknownCodesAreRejected :=
  ⟨fun _ _ _ args hp hc => step_of_unselected hp (decodeOperation_unknownOperation hc args),
    fun _ _ _ hp hs => step_of_unselected hp (decodeOperation_unknownStatus hs)⟩

/-- Settles O7: the selected micro-operation is DecByte, whose effect is `InvalidChar` in the five cells; a run of the encoder
has one of the other three statuses. -/
theorem illegalCellsAreFive : Obligations.IllegalCellsAreFive := by
  constructor
  · intro s b
    refine ⟨_, exec_wire b s, ?_⟩
    rw [decByte_eq]
    exact decEffect_invalidChar_iff s.inst b s.hasRoom
  · intro s p c
    refine ⟨_, _, _, _, exec_encode p c s, by rw [encodeCall_eq], ?_⟩
    rcases encRun_status (2 * p.length + 4) p c s.inst with h | h | h <;> simp [h]

end Sys2Proof
end

section
/-!
PROOFS. What the checksum covers (R55, R99, R127): the encoder and the decoder over the bytes START through END.
-/

namespace Sys2Proof.Machine

open Sys2Proof.Safety

/-- With the checksum enabled an encoder between frames owes more than the bytes through END, and `2n + 4` bytes at most
(R52, R126). -/
theorem covered_length_lt {i : Instance} (hb : BetweenFrames i) (hf : i.config.fn.isSome = true) (p : List Byte) :
    (covered p).length < 2 * p.length + 4 := by
  obtain ⟨f, hf⟩ := Option.isSome_iff_exists.1 hf
  have hc : encodeInContract i.state p := by rw [hb.1]; trivial
  calc (covered p).length < (owed i p).length := by simp [owed_between hb, frame, trailer, hf]
    _ ≤ encBound i.state p.length := owed_length hc
    _ ≤ 2 * p.length + 4 := encBound_le _ _

/-- With room for END only, ENC.CLOSE writes it and ENC.CK0 overflows (R115, R116). -/
theorem encRun_close {i : Instance} (hi : i.state = .started) (hf : i.config.fn.isSome = true) (k : Nat) :
    encRun (k + 1 + 1) [] 1 i = ⟨i.fold 0x03#8 .checksumByte0, 0, [0x03#8], .overflow⟩ := by
  simp [encRun, encStep, hi, hf, Instance.fold]

/-- With room up to END only, the encoder writes START, the bodies and END and overflows at the trailer (R110, D7). -/
theorem encRun_covered {i : Instance} (hb : BetweenFrames i) (hf : i.config.fn.isSome = true) (p : List Byte) {k : Nat}
    (hk : (covered p).length < k) :
    encRun k p (covered p).length i =
      ⟨{ i.foldAll (covered p) with state := .checksumByte0 }, p.length, covered p, .overflow⟩ := by
  have hlen : (covered p).length = (p.flatMap body).length + 1 + 1 := by simp [covered]
  obtain ⟨k, rfl⟩ : ∃ j, k = (p.flatMap body).length + (j + 1 + 1) + 1 := ⟨k - (p.flatMap body).length - 3, by omega⟩
  have hopen : encStep i p.head? = some ⟨0x02#8, i.fold 0x02#8 .started, 0, .continue_⟩ := by simp [encStep, hb.1]
  have hclose := encRun_close (i := (i.fold 0x02#8 .started).foldAll (p.flatMap body)) rfl hf k
  rw [hlen, encRun_cons hopen rfl, List.drop_zero, encRun_bodies _ _ _ _ rfl, hclose]
  simp [covered, Instance.foldAll, Instance.fold]

/-- Over the bytes START through END the decoder stops at no byte and stands before the trailer (R99). -/
theorem decRun_covered_nil {i : Instance} (hb : BetweenFrames i) (hf : i.config.fn.isSome = true) (p : List Byte) :
    decRun (covered p) p.length i =
      ⟨{ i.foldAll (covered p) with state := .checksumByte0 }, (covered p).length, p, .continue_⟩ := by
  have h := decRun_covered p [] p.length i hb (Nat.le_refl _)
  simpa [hf, decRun] using h

/-- Between frames the fold starts from the seed (R55, R172). -/
theorem foldAll_covered {i : Instance} {f : ChecksumFn} (hb : BetweenFrames i) (hf : i.config.fn = some f)
    (p : List Byte) :
    { i.foldAll (covered p) with state := .checksumByte0 } =
      { i with state := .checksumByte0, computedChecksum := foldChecksum f i.config.seed (covered p) } := by
  simp [Instance.foldAll, foldl_ckStep _ _ hf, hb.2]

end Sys2Proof.Machine

namespace Sys2Proof

open Sys2Proof.Machine

/-- Settles O43: both runs fold `covered p` from the seed, and neither call returns a status that resets. -/
theorem checksumCoversStartToEnd : Obligations.ChecksumCoversStartToEnd := by
  intro f p s hb hf
  have hsome : s.inst.config.fn.isSome = true := by rw [hf]; rfl
  have henc := encRun_covered hb hsome p (covered_length_lt hb hsome p)
  have hdec := decRun_covered_nil hb hsome p
  rw [foldAll_covered hb hf] at henc hdec
  constructor
  · rw [exec_encode, encodeCall_eq, henc, Instance.settled_eq rfl]
  · rw [exec_decode, decodeCall_eq, hdec, Instance.settled_eq rfl]

end Sys2Proof
end

section
/-!
PROOFS. A micro-operation that must emit and finds no room (R74), and the counts of a whole call (R76, R80, R110, R153).
-/

namespace Sys2Proof.Machine

open Sys2Proof.Safety

/-- The second byte of an escaped form begins with TryEmit (R90, R91, R92). -/
theorem State.unescape_emits (s : State) (b : Byte) :
    ∃ c f, (.next (s.unescape b) : Result) = .next (s.emitThen c f) :=
  ⟨b, _, rfl⟩

/-- Every row that emits begins with TryEmit: what else it does follows the byte's append (R77). -/
theorem exec_emits {i : Instr} (s : State) (h : emits i = true) :
    ∃ b f, exec i s = .next (s.emitThen b f) := by
  cases i with
  | decStartedOther b => exact ⟨b, _, rfl⟩
  | decEscapedStart => exact s.unescape_emits startByte
  | decEscapedEnd => exact s.unescape_emits endByte
  | decEscapedEsc => exact s.unescape_emits escapeByte
  | encOpen => exact ⟨startByte, _, rfl⟩
  | encEsc => exact ⟨escapeByte, _, rfl⟩
  | encMark v => exact ⟨v, _, rfl⟩
  | encLit v => exact ⟨v, _, rfl⟩
  | encClose => exact ⟨endByte, _, rfl⟩
  | encCk0 => exact ⟨lowByte s.inst.computedChecksum, _, rfl⟩
  | encCk1 => exact ⟨highByte s.inst.computedChecksum, _, rfl⟩
  | _ => cases h

/-- `Done` and the two errors are terminal (R150). -/
theorem statusIsTerminal_of_named {st : Status} (h : st = .done ∨ st = .invalidChar ∨ st = .invalidChecksum) :
    statusIsTerminal st = true := by
  obtain rfl | rfl | rfl := h <;> rfl

/-- DECODE replies with the counts, the status and the output of its run (R80). -/
theorem decodeCall_reply (p : List Byte) (c : Nat) (s : State) :
    (decodeCall p c s).reply = .counts (decRun p c s.inst).consumed (decRun p c s.inst).out.length
      (decRun p c s.inst).status (decRun p c s.inst).out := by
  rw [decodeCall_eq]

/-- ENCODE replies with the counts, the status and the output of its run (R110). -/
theorem encodeCall_reply (p : List Byte) (c : Nat) (s : State) :
    (encodeCall p c s).reply =
      .counts (encRun (2 * p.length + 4) p c s.inst).consumed (encRun (2 * p.length + 4) p c s.inst).out.length
        (encRun (2 * p.length + 4) p c s.inst).status (encRun (2 * p.length + 4) p c s.inst).out := by
  rw [encodeCall_eq]

end Sys2Proof.Machine

namespace Sys2Proof

open Sys2Proof.Machine

/-- Settles O22: an emitting row is TryEmit and what follows it, and TryEmit without room sets the status alone. -/
theorem fullOutputHasNoEffect : Obligations.FullOutputHasNoEffect := by
  intro i s hi hfull
  obtain ⟨b, f, hexec⟩ := exec_emits s hi
  rw [hexec, State.emitThen_full hfull.not_lt b f]
  rfl

/-- Settles O34: the reply carries the counts of the decoder's run, which `decRun_consumed` bounds. -/
theorem decodeCountsAreBounded : Obligations.DecodeCountsAreBounded := by
  intro p c s
  obtain ⟨hconsumed, hroom, hproduced, hcontinue, hoverflow, hterminal⟩ := decRun_consumed p c s.inst
  exact ⟨_, _, _, _, exec_decode p c s, decodeCall_reply p c s, hconsumed, hroom, hproduced, hcontinue, hoverflow,
    fun h => hterminal (statusIsTerminal_of_named h)⟩

/-- Settles O35: the reply carries the counts of the encoder's run, which `encRun_consumed` bounds. -/
theorem encodeCountsAreBounded : Obligations.EncodeCountsAreBounded := fun p c s =>
  ⟨_, _, _, _, exec_encode p c s, encodeCall_reply p c s, encRun_consumed (2 * p.length + 4) p c s.inst⟩

end Sys2Proof
end

section
/-!
PROOFS. The decoder's micro-operations one by one (R82 to R95): the next state each answers, and what a DECODE makes of a byte
that is illegal for the state it stands in.
-/

namespace Sys2Proof.Machine

open Sys2Proof.Safety

/-- An illegal byte is folded in and consumed, and gives `InvalidChar` (R61, R96). -/
theorem State.reject_fields (s : State) (b : Byte) :
    s.reject b = { s with
      inst := { s.inst with computedChecksum := folded s.inst b }
      call := { s.call with consumed := s.call.consumed + 1, status := .invalidChar } } := rfl

/-- The second byte of an escaped form, with room and without (R90, R91, R92). -/
theorem State.unescape_fields (s : State) (b : Byte) :
    s.unescape b =
      if s.call.out.length < s.call.capacity then
        { s with
          inst := { s.inst with state := .started, computedChecksum := folded s.inst b }
          call := { s.call with
            consumed := s.call.consumed + 1, out := s.call.out ++ [b], status := .continue_ } }
      else { s with call := { s.call with status := .overflow } } :=
  s.emitThen_eq b _

/-- The comparison of DEC.CK1 is equality of the two words (R95). -/
theorem State.judgeChecksum_eq (s : State) :
    s.judgeChecksum =
      s.setStatus (if s.inst.receivedChecksum = s.inst.computedChecksum then .done else .invalidChecksum) := by
  simp only [State.judgeChecksum, State.checksumsMatch, beq_iff_eq]

/-- Whatever the room, an illegal byte emits nothing and leaves `state` as it was (R61, R157). -/
theorem decEffect_of_invalidChar {i : Instance} {b : Byte} {room : Bool}
    (h : (decEffect i b room).status = .invalidChar) :
    decEffect i b room = ⟨i.fold b i.state, [], .invalidChar⟩ := by
  obtain ⟨hst, rfl⟩ | ⟨hst, rfl⟩ | ⟨hst, h2, -, -⟩ | ⟨hst, rfl⟩ | ⟨hst, h2, h3, h16⟩ :=
    (decEffect_invalidChar_iff i b room).1 h
  · simp [decEffect, hst]
  · simp [decEffect, hst]
  · simp [decEffect, hst, h2]
  · simp [decEffect, hst]
  · simp [decEffect, hst, h2, h3, h16]

/-- A run stops at an illegal first byte (R96). -/
theorem decRun_cons_of_invalidChar {i : Instance} {b : Byte} {room : Nat}
    (h : (decEffect i b (decide (0 < room))).status = .invalidChar) (rest : List Byte) :
    decRun (b :: rest) room i = ⟨i.fold b i.state, 1, [], .invalidChar⟩ := by
  simp only [decRun, decEffect_of_invalidChar h]

end Sys2Proof.Machine

namespace Sys2Proof

open Sys2Proof.Machine Sys2Proof.Safety

/-- Settles O9: the five rows reject the byte; a DECODE that meets it first stops there and resets the registers. -/
theorem illegalBytesDropTheFrame : Obligations.IllegalBytesDropTheFrame := by
  constructor
  · rintro s i b (⟨rfl, rfl⟩ | ⟨rfl, rfl⟩ | rfl | ⟨rfl, rfl⟩ | rfl) <;>
      exact congrArg Host.Outcome.next (s.reject_fields _)
  · intro s b rest c hcell
    have hinvalid : (decEffect s.inst b (decide (0 < c))).status = .invalidChar := by
      rw [decEffect_invalidChar_iff]
      tauto
    rw [exec_decode, decodeCall_eq, decRun_cons_of_invalidChar hinvalid]
    rfl

/-- Settles O8: every field the row writes is given by its pseudocode. -/
theorem decIdleStartOpensTheFrame : Obligations.DecIdleStartOpensTheFrame := fun _ => rfl

/-- Settles O10: END is accepted in either mode; with the checksum disabled its fold leaves the accumulator as it was. -/
theorem decStartedEndClosesTheFrame : Obligations.DecStartedEndClosesTheFrame := by
  intro s
  refine congrArg Host.Outcome.next ?_
  unfold decStartedEnd State.ckEnabled
  split
  · rfl
  · have hfold : ckStep s.inst.config s.inst.computedChecksum endByte = s.inst.computedChecksum :=
      ckStep_of_none (Option.not_isSome_iff_eq_none.1 ‹_›) _ _
    simp [State.setState_accept_eq, State.afterEffect, Instance.fold, hfold]

/-- Settles O11: the row attempts no emit, so it asks for no room. -/
theorem decStartedEscLatches : Obligations.DecStartedEscLatches := fun _ => rfl

/-- Settles O12: the row is TryEmit of its byte and then the accepted byte. -/
theorem decStartedOtherEmits : Obligations.DecStartedOtherEmits := fun s v =>
  congrArg Host.Outcome.next (s.emitThen_eq v _)

/-- Settles O13: the three rows are the second byte of an escaped form. -/
theorem decEscapedMarkersEmit : Obligations.DecEscapedMarkersEmit := by
  rintro s i b (⟨rfl, rfl⟩ | ⟨rfl, rfl⟩ | ⟨rfl, rfl⟩) <;>
    exact congrArg Host.Outcome.next (s.unescape_fields _)

/-- Settles O14: the low lane is written under a mask. -/
theorem decCk0StoresTheLowByte : Obligations.DecCk0StoresTheLowByte := by
  intro s b
  rw [← withLowByte_eq]
  rfl

/-- Settles O15: the high lane is written under a mask, and the word so stored is compared whole. -/
theorem decCk1StoresAndCompares : Obligations.DecCk1StoresAndCompares := by
  intro s b
  rw [← withHighByte_eq]
  exact congrArg Host.Outcome.next (State.judgeChecksum_eq _)

end Sys2Proof
end

section
/-!
PROOFS. One DECODE call: the run of the micro-operations its map selects (R80, R81), its end at the first terminal status
(R96), and the trailer that decides a frame (R95).
-/

namespace Sys2Proof.Machine

open Sys2Proof.Safety

theorem statusIsTerminal_iff (st : Status) :
    statusIsTerminal st = true ↔ st = .done ∨ st = .invalidChar ∨ st = .invalidChecksum := by
  cases st <;> decide

/-- The decoder over a whole frame with the checksum enabled: the fold of START through END stands against the trailer's
word (R55, R95). -/
theorem decRun_covered_trailer {i : Instance} {f : ChecksumFn} (hb : BetweenFrames i) (hf : i.config.fn = some f)
    {p : List Byte} {room : Nat} (hr : p.length ≤ room) (lo hi : Byte) (rest : List Byte) :
    decRun (covered p ++ lo :: hi :: rest) room i =
      ⟨{ i with
          state := .idle
          computedChecksum := foldChecksum f i.config.seed (covered p)
          receivedChecksum := hi ++ lo },
        (covered p).length + 2, p,
        if hi ++ lo = foldChecksum f i.config.seed (covered p) then .done else .invalidChecksum⟩ := by
  rw [decRun_covered p _ room i hb hr]
  simp [hf, foldAll_covered hb hf, decRun_trailer]

/-- A terminal status gives back the registers of between frames, but for `received_checksum` (R18, R172). -/
theorem settled_of_betweenFrames {i j : Instance} {st : Status} (hb : BetweenFrames i) (hj : j.config = i.config)
    (h : statusIsTerminal st = true) : j.settled st = { i with receivedChecksum := j.receivedChecksum } := by
  rw [Instance.settled, if_pos h, hj, ← hb.1, ← hb.2, ← hj]

end Sys2Proof.Machine

namespace Sys2Proof

open Sys2Proof.Machine Sys2Proof.Safety

/-- Settles O32: the trace of selected micro-operations runs the driving loop, whose counts `decRun_consumed` bounds, and
DECODE is that loop and the return. -/
theorem decodeIsItsMicroOperations : Obligations.DecodeIsItsMicroOperations := by
  intro p c k s hk
  obtain ⟨hlength, hrun⟩ := decodeTrace_run p k hk (s.openCall p c) rfl rfl
  have hloop : decodeLoop p.length (s.openCall p c) = (s.openCall p c).afterRun (decRun p c s.inst) :=
    decodeLoop_eq p (s.openCall p c) rfl rfl
  obtain ⟨hconsumed, hroom, -, hcontinue, -, -⟩ := decRun_consumed p c s.inst
  refine ⟨hlength, _, hrun, ?_, ?_, ?_, ?_⟩
  · simpa [hloop, State.afterRun] using hcontinue
  · simpa [hloop, State.afterRun] using hconsumed
  · simpa [hloop, State.afterRun] using hroom
  · rw [exec_decode, decodeCall, State.returnCall_eq]
    simp only [statusIsTerminal_iff]

/-- Settles O38: a run that has ended goes no further, and the call is a function of its run. -/
theorem decodeStopsAtItsTerminalByte : Obligations.DecodeStopsAtItsTerminalByte := by
  intro p rest c s t k m st o hexec hreply hst
  cases hexec
  rw [decodeCall_reply] at hreply
  cases hreply
  rw [exec_decode, decodeCall_eq, decRun_append_terminal p rest c s.inst (statusIsTerminal_of_named hst),
    ← decodeCall_eq]

/-- Settles O44: the run compares the trailer's word with the fold, and either answer resets the registers. -/
theorem trailerDecidesTheFrame : Obligations.TrailerDecidesTheFrame := by
  intro f p rest lo hi c s hb hf hc
  rw [exec_decode, decodeCall_eq, decRun_covered_trailer hb hf hc]
  dsimp only
  rw [settled_of_betweenFrames hb]
  · rfl
  · split <;> rfl

/-- Settles O36: the run over no byte does nothing, and `Continue` resets nothing. -/
theorem decodeOfNothing : Obligations.DecodeOfNothing := fun _ _ => rfl

end Sys2Proof
end

section
/-!
PROOFS. DECODE over any partition of the wire bytes (R102), and the round trip (R103).
-/

namespace Sys2Proof.Machine

open Sys2Proof.Safety

/-- What a run gives after its call has returned: the registers settled (R18). -/
def DecRun.returned (r : DecRun) : DecRun := { r with inst := r.inst.settled r.status }

/-- A run, then another from the registers it left: the counts add up and the last status stands (R102). -/
def DecRun.andThen (r q : DecRun) : DecRun := ⟨q.inst, r.consumed + q.consumed, r.out ++ q.out, q.status⟩

/-- A tally in the terms of a run, with the registers of the state it left. -/
def runOfTally (t : Tally) : DecRun := ⟨t.last.inst, t.consumed, t.out, t.status⟩

theorem runOfTally_after (later earlier : Tally) :
    runOfTally (later.after earlier) = (runOfTally earlier).andThen (runOfTally later) := rfl

theorem runOfTally_decodeOnce (p : List Byte) (c : Nat) (s : State) :
    runOfTally (decodeOnce p c s) = (decRun p c s.inst).returned := by
  rw [decodeOnce_eq, runOfTally, decodeCall_inst]
  rfl

theorem runOfTally_inj {t u : Tally} (h : runOfTally t = runOfTally u) :
    t.status = u.status ∧ t.consumed = u.consumed ∧ t.out = u.out ∧ t.last.inst = u.last.inst := by
  obtain ⟨hinst, hconsumed, hout, hstatus⟩ := DecRun.mk.inj h
  exact ⟨hstatus, hconsumed, hout, hinst⟩

/-- With room enough, what follows a terminal byte and how much room there was changes nothing (R96, R157). -/
theorem decRun_append_of_terminal {a b : List Byte} {c C : Nat} {i : Instance} (hC : (a ++ b).length ≤ C)
    (h : statusIsTerminal (decRun a c i).status = true) : decRun (a ++ b) C i = decRun a c i := by
  rw [decRun_split a b c C i hC, if_pos h]

/-- With room enough, a run that is not ended by `a` is the run over `a` with any room, then the run over what that left and
`b` (R102, R176). -/
theorem decRun_append_of_not_terminal {a b : List Byte} {c C : Nat} {i : Instance} (hC : (a ++ b).length ≤ C)
    (h : ¬ statusIsTerminal (decRun a c i).status = true) :
    decRun (a ++ b) C i = (decRun a c i).andThen
      (decRun (a.drop (decRun a c i).consumed ++ b) (C - (decRun a c i).out.length) (decRun a c i).inst) := by
  rw [decRun_split a b c C i hC, if_neg h]
  rfl

/-- What a run leaves still fits the room it leaves. -/
theorem decRun_rest_fits {a b : List Byte} {C : Nat} (hC : (a ++ b).length ≤ C) (c : Nat) (i : Instance) :
    (a.drop (decRun a c i).consumed ++ b).length ≤ C - (decRun a c i).out.length := by
  obtain ⟨hconsumed, -, hproduced, -⟩ := decRun_consumed a c i
  simp only [List.length_append, List.length_drop] at hC ⊢
  omega

/-- A run that needs more input stands as it is after no more of it (R98). -/
theorem DecRun.andThen_decRun_nil {r : DecRun} (h : r.status = .continue_) (room : Nat) :
    r.andThen (decRun [] room r.inst) = r := by
  rw [DecRun.andThen, decRun, List.append_nil, ← h]
  rfl

/-- A run that did not overflow is the run with any room that is enough (R157). -/
theorem decRun_of_not_overflow {a : List Byte} {c C : Nat} {i : Instance} (hC : a.length ≤ C)
    (h : (decRun a c i).status ≠ .overflow) : decRun a C i = decRun a c i := by
  have hC' : (a ++ []).length ≤ C := by simpa using hC
  by_cases hterm : statusIsTerminal (decRun a c i).status = true
  · simpa using decRun_append_of_terminal hC' hterm
  · obtain ⟨-, -, -, hall, -⟩ := decRun_consumed a c i
    have hcontinue : (decRun a c i).status = .continue_ := by
      cases hst : (decRun a c i).status <;> simp_all [statusIsTerminal]
    have hsplit := decRun_append_of_not_terminal hC' hterm
    rwa [hall hcontinue, List.drop_length, List.append_nil, List.append_nil,
      DecRun.andThen_decRun_nil hcontinue] at hsplit

theorem DecRun.returned_of_not_terminal {r : DecRun} (h : ¬ statusIsTerminal r.status = true) : r.returned = r := by
  rw [DecRun.returned, Instance.settled_eq (Bool.eq_false_of_not_eq_true h)]

theorem DecRun.andThen_returned (r q : DecRun) : (r.andThen q).returned = r.andThen q.returned := rfl

theorem feedDecode_of_terminal {piece carry : List Byte} {c : Nat} {s : State} (rest : List (List Byte × Nat))
    (h : statusIsTerminal (decRun (carry ++ piece) c s.inst).status = true) :
    feedDecode ((piece, c) :: rest) carry s = decodeOnce (carry ++ piece) c s := by
  unfold feedDecode
  exact if_pos (by rwa [decodeOnce_eq])

theorem feedDecode_singleton (piece carry : List Byte) (c : Nat) (s : State) :
    feedDecode [(piece, c)] carry s = decodeOnce (carry ++ piece) c s := by
  rw [feedDecode, ite_self]

theorem feedDecode_of_not_terminal {piece carry : List Byte} {c : Nat} {s : State} (next : List Byte × Nat)
    (rest : List (List Byte × Nat)) (h : ¬ statusIsTerminal (decRun (carry ++ piece) c s.inst).status = true) :
    feedDecode ((piece, c) :: next :: rest) carry s =
      (feedDecode (next :: rest) ((carry ++ piece).drop (decRun (carry ++ piece) c s.inst).consumed)
        (decodeCall (carry ++ piece) c s)).after (decodeOnce (carry ++ piece) c s) := by
  rw [feedDecode, if_neg (by rwa [decodeOnce_eq]), decodeOnce_eq]

/-- The caller of R102 that does not end with `Overflow` has collected one run over what it carried and all its pieces. -/
theorem runOfTally_feedDecode (pieces : List (List Byte × Nat)) (carry : List Byte) (s : State) {C : Nat}
    (hcarry : pieces = [] → carry = []) (hC : (carry ++ (pieces.map Prod.fst).flatten).length ≤ C)
    (h : (feedDecode pieces carry s).status ≠ .overflow) :
    runOfTally (feedDecode pieces carry s) = (decRun (carry ++ (pieces.map Prod.fst).flatten) C s.inst).returned := by
  induction pieces generalizing carry s C with
  | nil =>
    rw [hcarry rfl]
    rfl
  | cons first rest ih =>
    obtain ⟨piece, c⟩ := first
    rw [List.map_cons, List.flatten_cons, ← List.append_assoc] at hC ⊢
    by_cases hterm : statusIsTerminal (decRun (carry ++ piece) c s.inst).status = true
    · rw [feedDecode_of_terminal rest hterm, runOfTally_decodeOnce, decRun_append_of_terminal hC hterm]
    cases rest with
    | nil =>
      rw [List.map_nil, List.flatten_nil, List.append_nil] at hC ⊢
      rw [feedDecode_singleton, decodeOnce_eq] at h
      rw [feedDecode_singleton, runOfTally_decodeOnce, decRun_of_not_overflow hC h]
    | cons next rest =>
      have hinst : (decodeCall (carry ++ piece) c s).inst = (decRun (carry ++ piece) c s.inst).inst := by
        rw [decodeCall_inst, Instance.settled_eq (Bool.eq_false_of_not_eq_true hterm)]
      rw [feedDecode_of_not_terminal next rest hterm] at h ⊢
      rw [runOfTally_after, runOfTally_decodeOnce, DecRun.returned_of_not_terminal hterm,
        decRun_append_of_not_terminal hC hterm, DecRun.andThen_returned,
        ih _ _ nofun (decRun_rest_fits hC c s.inst) h, hinst]

/-- The decoder over `Frame(p)` in between-frames registers: all of it consumed, the payload out, `Done` (R52, R103). -/
theorem decRun_frame {i : Instance} (hb : BetweenFrames i) {p : List Byte} {room : Nat} (hr : p.length ≤ room) :
    ∃ j, decRun (frame i.config p) room i = ⟨j, (frame i.config p).length, p, .done⟩ := by
  cases hf : i.config.fn with
  | none =>
    have hrun := decRun_covered p [] room i hb hr
    have hframe : frame i.config p = covered p := by simp [frame, trailer, hf]
    rw [hframe]
    exact ⟨_, by simpa [hf] using hrun⟩
  | some f =>
    have hframe : frame i.config p =
        covered p ++ [lowByte (foldChecksum f i.config.seed (covered p)),
          highByte (foldChecksum f i.config.seed (covered p))] := by
      simp [frame, trailer, hf, lowByte, highByte]
    rw [hframe, decRun_covered_trailer hb hf hr, highByte_append_lowByte, if_pos rfl]
    exact ⟨_, by rw [List.length_append]; rfl⟩

/-- What the encoder still owes in contract is never nothing (R118). -/
theorem owed_length_pos {i : Instance} {p : List Byte} (h : encodeInContract i.state p) : 0 < (owed i p).length := by
  obtain ⟨e, -, -, ⟨-, -, howed⟩ | ⟨-, howed, -⟩⟩ := owed_step h <;> simp [howed]

/-- The registers `Done` leaves are determined by the two it does not write (R72). -/
theorem settled_done_congr {i j : Instance} (hconfig : i.config = j.config)
    (hreceived : i.receivedChecksum = j.receivedChecksum) : i.settled .done = j.settled .done := by
  simp only [Instance.settled, statusIsTerminal, if_true, hconfig, hreceived]

/-- Whatever capacities the calls offer, an in-contract caller that has room for what the encoder owes collects it, with `Done`
and the registers settled (R118, R125). -/
theorem drainEncode_owed (capacities : List Nat) (p : List Byte) (s : State) (h : encodeInContract s.inst.state p)
    (hroom : (owed s.inst p).length ≤ capacities.sum) :
    ∃ t, drainEncode capacities p s = ⟨p.length, owed s.inst p, .done, t⟩ ∧ t.inst = s.inst.settled .done := by
  induction capacities generalizing p s with
  | nil => exact absurd hroom (owed_length_pos h).not_ge
  | cons c capacities ih =>
    rw [List.sum_cons] at hroom
    obtain ⟨hfits, hover⟩ := encRun_owed (2 * p.length + 4) p c s.inst h ((owed_length h).trans (encBound_le _ _))
    by_cases hc : (owed s.inst p).length ≤ c
    · obtain ⟨hst, hout, hconsumed⟩ := hfits hc
      refine ⟨encodeCall p c s, ?_, ?_⟩
      · rw [drainEncode, encodeOnce_eq, hst, if_neg nofun, hout, hconsumed]
      · obtain ⟨hconfig, hreceived⟩ := encRun_config (2 * p.length + 4) p c s.inst
        rw [encodeCall_inst, hst, settled_done_congr hconfig hreceived]
    · obtain ⟨hst, hout, hcontract, howed⟩ := hover (by omega)
      have hinst : (encodeCall p c s).inst = (encRun (2 * p.length + 4) p c s.inst).inst := by
        rw [encodeCall_inst, hst, Instance.settled_eq rfl]
      rw [← hinst] at hcontract howed
      obtain ⟨t, hdrain, ht⟩ := ih _ (encodeCall p c s) hcontract (by rw [howed, List.length_drop]; omega)
      refine ⟨t, ?_, ht.trans (settled_done_congr (encodeCall_config p c s) (encodeCall_received p c s))⟩
      have hconsumed := (encRun_consumed (2 * p.length + 4) p c s.inst).1
      rw [drainEncode, encodeOnce_eq, if_pos hst, hdrain, Tally.after, hout, howed, List.take_append_drop,
        List.length_drop, Nat.add_sub_cancel' hconsumed]

end Sys2Proof.Machine

namespace Sys2Proof

open Sys2Proof.Machine Sys2Proof.Safety

/-- Settles O39: either caller has collected the same run, over all the bytes. -/
theorem decodeChunkInvariance : Obligations.DecodeChunkInvariance := by
  intro pieces c s hc h
  apply runOfTally_inj
  rw [runOfTally_decodeOnce]
  exact runOfTally_feedDecode pieces [] s (fun _ => rfl) hc h

/-- Settles O42: the sender's calls add up to `Frame(p)`, and the receiver's to one run over it. -/
theorem roundTrip : Obligations.RoundTrip := by
  intro p capacities pieces tx rx htx hrx hconfig hroom hwire h
  have hcontract : encodeInContract tx.inst.state p := by rw [htx.1]; trivial
  obtain ⟨t, hdrain, -⟩ := drainEncode_owed capacities p tx hcontract (by rwa [owed_between htx])
  rw [hdrain, owed_between htx] at hwire
  have hfeed := runOfTally_feedDecode pieces [] rx (fun _ => rfl) (Nat.le_add_left _ p.length) h
  obtain ⟨j, hrun⟩ := decRun_frame hrx (Nat.le_add_right p.length (frame rx.inst.config p).length)
  rw [List.nil_append, hwire, hconfig, hrun] at hfeed
  obtain ⟨hinst, hconsumed, hout, hstatus⟩ := DecRun.mk.inj hfeed
  refine ⟨hstatus, hout, by rw [hconsumed, hconfig], ?_⟩
  rw [hinst]
  exact settled_between j .done (.inl rfl)

end Sys2Proof
end

section
/-!
PROOFS. One ENCODE call: the run of the micro-operations its map selects (R60, R110), the frame it writes (R52, R126),
the statuses it answers (R119, R121, R124), and what it leaves to a caller that resumes (R118, R125).
-/

namespace Sys2Proof.Machine

open Sys2Proof.Safety

/-- Of the statuses a run of the encoder ends with, `Done` alone resets (R119, R120). -/
theorem encRun_terminal_iff (k : Nat) (p : List Byte) (room : Nat) (i : Instance) :
    statusIsTerminal (encRun k p room i).status = true ↔ (encRun k p room i).status = .done := by
  obtain h | h | h := encRun_status k p room i <;> simp [h, statusIsTerminal]

/-- The micro-operations a call performs, one after another, end with the status of the encoder's run. -/
theorem encGreedy_openCall_status (k : Nat) (p : List Byte) (c : Nat) (s : State) :
    (encGreedy k (s.openCall p c)).call.status = (encRun k p c s.inst).status := by
  rw [encGreedy_eq k (s.openCall p c) rfl]
  rfl

theorem markerCount_cons (v : Byte) (p : List Byte) :
    markerCount (v :: p) = (if isMarker v = true then 1 else 0) + markerCount p := by
  simp only [markerCount, List.filter_cons, isMarker_iff, decide_eq_true_eq]
  split <;> simp [Nat.add_comm]

/-- A marker is written as two bytes, any other byte as one (R53). -/
theorem body_length (v : Byte) : (body v).length = 1 + if isMarker v = true then 1 else 0 := by
  cases hm : isMarker v
  · rw [body_other hm]
    rfl
  · rw [body_marker hm]
    rfl

/-- Escaping adds one byte for each marker of the payload (R53, R126). -/
theorem flatMap_body_length (p : List Byte) : (p.flatMap body).length = p.length + markerCount p := by
  induction p with
  | nil => rfl
  | cons v p ih =>
    rw [List.flatMap_cons, List.length_append, body_length, ih, List.length_cons, markerCount_cons]
    omega

/-- START, the bodies, END, and two bytes of trailer when the checksum is enabled (R52, R126). -/
theorem frame_length (config : CodecConfig) (p : List Byte) :
    (frame config p).length = 2 + p.length + markerCount p + (if config.fn.isSome = true then 2 else 0) := by
  have htrailer : (trailer config p).length = if config.fn.isSome = true then 2 else 0 := by
    unfold trailer
    cases config.fn <;> rfl
  have hcovered : (covered p).length = (p.flatMap body).length + 2 := by simp [covered]
  rw [frame, List.length_append, htrailer, hcovered, flatMap_body_length]
  omega

/-- A payload of markers only, with the checksum enabled, has the longest frame (R128). -/
theorem frame_length_le (config : CodecConfig) (p : List Byte) : (frame config p).length ≤ 2 * p.length + 4 := by
  have hmarkers : markerCount p ≤ p.length := List.length_filter_le _ _
  rw [frame_length]
  split <;> omega

/-- Between frames every payload is in contract (R118). -/
theorem encodeInContract_of_betweenFrames {i : Instance} (h : BetweenFrames i) (p : List Byte) :
    encodeInContract i.state p := by
  rw [h.1]
  trivial

/-- From between frames an ENCODE with room writes `Frame(p)` and leaves the registers as they were (R120, R126). -/
theorem encodeCall_of_frame_fits {s : State} (hb : BetweenFrames s.inst) {p : List Byte} {c : Nat}
    (hc : (frame s.inst.config p).length ≤ c) :
    encodeCall p c s = { s with
      call := Call.none
      reply := .counts p.length (frame s.inst.config p).length .done (frame s.inst.config p) } := by
  have hk := frame_length_le s.inst.config p
  rw [← owed_between hb] at hc hk ⊢
  obtain ⟨hst, hout, hconsumed⟩ :=
    (encRun_owed (2 * p.length + 4) p c s.inst (encodeInContract_of_betweenFrames hb p) hk).1 hc
  rw [encodeCall_eq, hst, hout, hconsumed, encRun_settled_done hb]

/-- In contract there is a byte to write, so a run without room overflows and does nothing else (R118, R125). -/
theorem encRun_no_room {i : Instance} {p : List Byte} (h : encodeInContract i.state p) (k : Nat) :
    encRun (k + 1) p 0 i = ⟨i, 0, [], .overflow⟩ := by
  obtain ⟨e, he, -⟩ := owed_step h
  simp [encRun, he]

/-- Where the map of R60 selects nothing, the run does nothing (R124). -/
theorem encRun_of_nothing_selected {i : Instance} {p : List Byte} (h : encStep i p.head? = none) (k room : Nat) :
    encRun (k + 1) p room i = ⟨i, 0, [], .continue_⟩ := by
  simp [encRun, h]

end Sys2Proof.Machine

namespace Sys2Proof

open Sys2Proof.Machine Sys2Proof.Safety

/-- Settles O33: the trace of selected micro-operations runs the four phases, and ENCODE is those and the return. -/
theorem encodeIsItsMicroOperations : Obligations.EncodeIsItsMicroOperations := by
  intro p c k s hk
  obtain ⟨hrun, hlength⟩ := encodeTrace_run k (s.openCall p c)
  refine ⟨hlength.trans (encBound_le s.inst.state p.length), _, hrun, ?_⟩
  rw [exec_encode, encodeCall, encodePhases_eq _ k hk rfl rfl, State.returnCall_eq]
  simp only [encGreedy_openCall_status, encRun_terminal_iff]

/-- Settles O40: between frames the encoder owes `Frame(p)`, and the room is enough for it. -/
theorem encodeWritesTheFrame : Obligations.EncodeWritesTheFrame := fun p c s hb hc =>
  ⟨(exec_encode p c s).trans (congrArg Host.Outcome.next (encodeCall_of_frame_fits hb hc)), frame_length _ p⟩

/-- Settles O41: the calls collect what the encoder owes, which between frames is `Frame(p)`; without room the first
write overflows. -/
theorem encodeChunkInvariance : Obligations.EncodeChunkInvariance := by
  constructor
  · intro capacities p s hb hroom
    rw [← owed_between hb] at hroom ⊢
    obtain ⟨t, hdrain, ht⟩ := drainEncode_owed capacities p s (encodeInContract_of_betweenFrames hb p) hroom
    rw [hdrain]
    exact ⟨rfl, rfl, rfl, ht.trans (settled_of_betweenFrames hb rfl rfl)⟩
  · intro p s h
    rw [exec_encode, encodeCall_eq, encRun_no_room h, Instance.settled_eq rfl]
    rfl

/-- Settles O45: the run ends in one of three ways, in contract in two of them, and `Done` resets the registers. -/
theorem encodeStatusesInContract : Obligations.EncodeStatusesInContract := by
  intro p c s
  obtain ⟨-, -, hall, -⟩ := encRun_consumed (2 * p.length + 4) p c s.inst
  refine ⟨_, _, _, _, exec_encode p c s, encodeCall_reply p c s, or_rotate.1 (encRun_status _ p c s.inst),
    fun hcontract => ?_, fun hdone => ⟨?_, hall hdone⟩⟩
  · obtain hst | ⟨hst, -⟩ := encRun_in_contract p c s hcontract <;> simp [hst]
  · rw [encodeCall_inst]
    exact settled_between _ _ (.inl hdone)

/-- Settles O46: the run that overflows in contract stops in contract, and `Overflow` resets nothing. -/
theorem overflowLeavesAResumableEncoder : Obligations.OverflowLeavesAResumableEncoder := by
  intro p c s t k m o hcontract hexec hreply
  cases hexec
  rw [encodeCall_reply] at hreply
  obtain ⟨rfl, -, hst, -⟩ := Reply.counts.inj hreply
  rw [encodeCall_inst, hst, Instance.settled_eq rfl]
  obtain hdone | ⟨-, hresume⟩ := encRun_in_contract p c s hcontract
  · rw [hst] at hdone
    cases hdone
  · exact hresume

/-- Settles O48: no frame is longer than `2n + 4` bytes, so the call has room for it. -/
theorem twiceTheLengthPlusFourSuffices : Obligations.TwiceTheLengthPlusFourSuffices := fun p s hb =>
  have hle := frame_length_le s.inst.config p
  ⟨(encodeWritesTheFrame p _ s hb hle).1, hle⟩

/-- Settles O47: the map of R60 selects nothing there, and `Continue` resets nothing. -/
theorem encodeOfNothingWhileLatched : Obligations.EncodeOfNothingWhileLatched := by
  intro c s hs
  have hnone : encStep s.inst ([] : List Byte).head? = none := by simp [encStep, hs]
  rw [exec_encode, encodeCall_eq, encRun_of_nothing_selected hnone, Instance.settled_eq rfl]
  rfl

end Sys2Proof
end

section
/-!
PROOFS. The encoder's micro-operations one by one (R111 to R117): the next state each answers, with room and without.
-/

namespace Sys2Proof.Machine

open Sys2Proof.Safety

/-- CkUpdate does nothing where there is no update function (R71). -/
theorem State.ckUpdate_of_absent {s : State} (h : s.inst.config.fn = none) (b : Byte) : s.ckUpdate b = s := by
  rw [State.ckUpdate, ckStep_of_none h]
  rfl

/-- ENC.CLOSE, with room in either mode and without: with the checksum disabled the accumulator is not
written (R71, R115). -/
theorem encClose_fields (s : State) :
    encClose s =
      if s.call.out.length < s.call.capacity then
        if s.inst.config.fn.isSome = true then
          { s with
            inst := { s.inst with state := .checksumByte0, computedChecksum := folded s.inst 0x03#8 }
            call := { s.call with out := s.call.out ++ [0x03#8], status := .continue_ } }
        else
          { s with
            inst := { s.inst with state := .idle }
            call := { s.call with out := s.call.out ++ [0x03#8], status := .done } }
      else { s with call := { s.call with status := .overflow } } := by
  rw [encClose, State.emitThen_eq]
  refine if_congr Iff.rfl ?_ rfl
  refine ite_congr rfl (fun _ => rfl) fun hf => ?_
  rw [State.ckUpdate_of_absent (s := s.append endByte) (Option.not_isSome_iff_eq_none.1 hf)]
  rfl

end Sys2Proof.Machine

namespace Sys2Proof

open Sys2Proof.Machine

/-- Settles O16: the row is TryEmit of START, the fold and the transition. -/
theorem encOpenWritesStart : Obligations.EncOpenWritesStart := fun s =>
  congrArg Host.Outcome.next (s.emitThen_eq startByte _)

/-- Settles O17: the row is TryEmit of ESCAPE, the fold and the transition; the cursor is not among what it writes. -/
theorem encEscWritesEscape : Obligations.EncEscWritesEscape := fun s =>
  congrArg Host.Outcome.next (s.emitThen_eq escapeByte _)

/-- Settles O18: the row is TryEmit of its byte, the fold, the transition and the consumed byte. -/
theorem encMarkWritesTheMarker : Obligations.EncMarkWritesTheMarker := fun s v =>
  congrArg Host.Outcome.next (s.emitThen_eq v _)

/-- Settles O19: the row is TryEmit of its byte, the fold and the consumed byte. -/
theorem encLitWritesTheByte : Obligations.EncLitWritesTheByte := fun s v =>
  congrArg Host.Outcome.next (s.emitThen_eq v _)

/-- Settles O20: what follows END depends on whether there is an update function. -/
theorem encCloseWritesEnd : Obligations.EncCloseWritesEnd := fun s =>
  congrArg Host.Outcome.next (encClose_fields s)

/-- Settles O21: the two lanes of the accumulator are its remainder and its quotient by 256. -/
theorem encTrailerWritesLowThenHigh : Obligations.EncTrailerWritesLowThenHigh := by
  intro s
  rw [← lowByte_eq, ← highByte_eq]
  exact ⟨congrArg Host.Outcome.next (s.emitThen_eq _ _), congrArg Host.Outcome.next (s.emitThen_eq _ _)⟩

end Sys2Proof
end

section
/-!
PROOFS. The operations INIT, RESET and IS_ERROR (R140 to R142), and that every instruction completes (R143).
-/

namespace Sys2Proof.Machine

/-- The table of R142 as a condition on the status. -/
theorem statusIsError_iff (st : Status) : statusIsError st = true ↔ st = .invalidChar ∨ st = .invalidChecksum := by
  cases st <;> simp [statusIsError]

/-- ResetInst writes two registers (R72). -/
theorem State.resetInst_eq (s : State) :
    s.resetInst = { s with inst := { s.inst with state := .idle, computedChecksum := s.inst.config.seed } } := rfl

theorem exec_init (config : CodecConfig) (s : State) : exec (.init config) s = .next (initCall config s) := rfl

theorem exec_reset (s : State) : exec .reset s = .next (s.resetInst.setReply .nothing) := rfl

theorem exec_isError (st : Status) (s : State) :
    exec (.isError st) s = .next (s.setReply (.verdict (statusIsError st))) := rfl

end Sys2Proof.Machine

namespace Sys2Proof

open Sys2Proof.Machine

/-- Settles O24: the free value is the one drawn at this INIT. -/
theorem initMakesAFreshInstance : Obligations.InitMakesAFreshInstance := fun config s =>
  ⟨Config.recvInit s.draws, exec_init config s⟩

/-- Settles O25: RESET is ResetInst, and the reply is nothing. -/
theorem resetReturnsToIdle : Obligations.ResetReturnsToIdle := by
  intro s
  rw [exec_reset, State.resetInst_eq]
  rfl

/-- Settles O26: the reply is the verdict of R142's table on the operand. -/
theorem isErrorNamesTheTwoErrors : Obligations.IsErrorNamesTheTwoErrors := by
  intro st s
  have hverdict : statusIsError st = decide (st = .invalidChar ∨ st = .invalidChecksum) :=
    Bool.eq_iff_iff.2 ((statusIsError_iff st).trans decide_eq_true_iff.symm)
  rw [exec_isError, hverdict]
  rfl

/-- Settles O27: a micro-operation answers a next state, and so does each of the five operations. -/
theorem everyInstructionCompletes : Obligations.EveryInstructionCompletes := exec_next

end Sys2Proof
end

section
/-!
PROOFS. The state after reset (R170 to R172): a fresh instance, which is between frames, and so a state of the invariant.
-/

namespace Sys2Proof.Machine

open Sys2Proof.Safety

/-- A fresh instance is between frames, whatever its config and whatever `received_checksum` holds (R171, R172). -/
theorem betweenFrames_initial (config : CodecConfig) (received : Word) :
    BetweenFrames (Instance.initial config received) :=
  ⟨rfl, rfl⟩

theorem State.reset_inst : State.reset.inst = Instance.initial Config.resetConfig Config.resetReceived := rfl

theorem State.betweenFrames_reset : BetweenFrames State.reset.inst :=
  State.reset_inst ▸ betweenFrames_initial _ _

end Sys2Proof.Machine

namespace Sys2Proof

open Sys2Proof.Machine

/-- Settles O54: no call is open, and a fresh instance is good because it is between frames. -/
theorem resetMeetsTheInvariant : Obligations.ResetMeetsTheInvariant :=
  inv_iff.2 ⟨rfl, good_of_betweenFrames State.betweenFrames_reset⟩

/-- Settles O55: the instance is a fresh one; the other fields are those of `State.reset`. -/
theorem resetIsBetweenFrames : Obligations.ResetIsBetweenFrames :=
  ⟨State.betweenFrames_reset, rfl, rfl, rfl⟩

end Sys2Proof
end
